-- ==== Sys2Proof/Word.lean ====
section
/-! DEFINITION. The machine's word types (spec/10_state.md R20, spec/30_encoding.md R71). -/

namespace Sys2Proof

/-- A memory cell, a general register, a timer, an immediate `nn` (R20, R71). -/
abbrev Byte := BitVec 8

/-- The index register, the program counter, a stack entry, an instruction word (R20, R70). -/
abbrev Word := BitVec 16

/-- The immediate address `nnn`, `op[11:0]` (R71). -/
abbrev Addr := BitVec 12

/-- A register index, or any other 4-bit operand the spec uses as a number 0-15 (R71: `x`, `y`, `n`; R30: a key). -/
abbrev Reg := Fin 16

/-- VF, register 15, which is also the flag register (R23). -/
abbrev VF : Reg := 15

end Sys2Proof
end

