-- ==== Sys2Proof/Syntax.lean ====
section
/-! DEFINITION. The instructions: one constructor per row of spec/opcode_table.json (spec/30_encoding.md R75), in its order.
The operands are those of the row's format (R72). -/

namespace Sys2Proof

inductive Instr where
  /-- 0x0000 `NOP` (R110). -/
  | nop
  /-- 0x00E0 `CLS` (R132). -/
  | cls
  /-- 0x00EE `RET` (R111). -/
  | ret
  /-- 0x1nnn `JP nnn` (R112). -/
  | jp (nnn : Addr)
  /-- 0x2nnn `CALL nnn` (R113). -/
  | call (nnn : Addr)
  /-- 0x3xnn `SE Vx, nn` (R114). -/
  | seImm (x : Reg) (nn : Byte)
  /-- 0x4xnn `SNE Vx, nn` (R115). -/
  | sneImm (x : Reg) (nn : Byte)
  /-- 0x5xy0 `SE Vx, Vy` (R116). -/
  | seReg (x y : Reg)
  /-- 0x6xnn `LD Vx, nn` (R141). -/
  | ldImm (x : Reg) (nn : Byte)
  /-- 0x7xnn `ADD Vx, nn` (R142). -/
  | addImm (x : Reg) (nn : Byte)
  /-- 0x8xy0 `LD Vx, Vy` (R143). -/
  | ldReg (x y : Reg)
  /-- 0x8xy1 `OR Vx, Vy` (R144). -/
  | orReg (x y : Reg)
  /-- 0x8xy2 `AND Vx, Vy` (R145). -/
  | andReg (x y : Reg)
  /-- 0x8xy3 `XOR Vx, Vy` (R146). -/
  | xorReg (x y : Reg)
  /-- 0x8xy4 `ADD Vx, Vy` (R147). -/
  | addReg (x y : Reg)
  /-- 0x8xy5 `SUB Vx, Vy` (R148). -/
  | sub (x y : Reg)
  /-- 0x8xy6 `SHR Vx, Vy` (R149). -/
  | shr (x y : Reg)
  /-- 0x8xy7 `SUBN Vx, Vy` (R150). -/
  | subn (x y : Reg)
  /-- 0x8xyE `SHL Vx, Vy` (R151). -/
  | shl (x y : Reg)
  /-- 0x9xy0 `SNE Vx, Vy` (R117). -/
  | sneReg (x y : Reg)
  /-- 0xAnnn `LD I, nnn` (R170). -/
  | ldI (nnn : Addr)
  /-- 0xBnnn `JP V0, nnn` (R118). -/
  | jpV0 (nnn : Addr)
  /-- 0xCxnn `RND Vx, nn` (R152). -/
  | rnd (x : Reg) (nn : Byte)
  /-- 0xDxyn `DRW Vx, Vy, n` (R133). -/
  | drw (x y n : Reg)
  /-- 0xEx9E `SKP Vx` (R190). -/
  | skp (x : Reg)
  /-- 0xExA1 `SKNP Vx` (R191). -/
  | sknp (x : Reg)
  /-- 0xFx07 `LD Vx, DT` (R192). -/
  | ldVxDt (x : Reg)
  /-- 0xFx0A `LD Vx, K` (R193). -/
  | ldVxK (x : Reg)
  /-- 0xFx15 `LD DT, Vx` (R194). -/
  | ldDtVx (x : Reg)
  /-- 0xFx18 `LD ST, Vx` (R195). -/
  | ldStVx (x : Reg)
  /-- 0xFx1E `ADD I, Vx` (R171). -/
  | addI (x : Reg)
  /-- 0xFx29 `LD F, Vx` (R172). -/
  | ldF (x : Reg)
  /-- 0xFx33 `LD B, Vx` (R173). -/
  | ldB (x : Reg)
  /-- 0xFx55 `LD [I], Vx` (R174). -/
  | ldMemVx (x : Reg)
  /-- 0xFx65 `LD Vx, [I]` (R175). -/
  | ldVxMem (x : Reg)
  deriving DecidableEq, Repr

end Sys2Proof
end

