-- ==== Sys2Proof/WellFormed.lean ====
section
/-! DEFINITION. Well-formed operands: the six formats of spec/30_encoding.md R72 with their operand fields and the widths of
R71. An instruction is well-formed when its operands, read as numbers, are those of its format, each below 2^width. The
operand types of `Instr` admit nothing else, so every `Instr` is well-formed (Laws/PerInstr.lean proves it per constructor);
`Format.admits` is the check for operands that are still plain numbers. -/

namespace Sys2Proof

/-- The six formats (R72). -/
inductive Format where
  | N | NNN | XNN | XY | XYN | X
  deriving DecidableEq, Repr

/-- The widths of a format's operand fields, in the order of the syntax column (R71, R72). -/
def Format.widths : Format → List Nat
  | .N => []
  | .NNN => [12]
  | .XNN => [4, 8]
  | .XY => [4, 4]
  | .XYN => [4, 4, 4]
  | .X => [4]

/-- Each operand fits its field, and there are as many operands as fields. -/
def fitAll : List Nat → List Nat → Bool
  | [], [] => true
  | w :: ws, o :: os => decide (o < 2 ^ w) && fitAll ws os
  | _, _ => false

/-- The operands `os` are operands of the format `f` (R72, R73). -/
def Format.admits (f : Format) (os : List Nat) : Bool :=
  fitAll f.widths os

namespace Instr

/-- The format of each row (R72). -/
def format : Instr → Format
  | .nop | .cls | .ret => .N
  | .jp _ | .call _ | .ldI _ | .jpV0 _ => .NNN
  | .seImm _ _ | .sneImm _ _ | .ldImm _ _ | .addImm _ _ | .rnd _ _ => .XNN
  | .seReg _ _ | .sneReg _ _ => .XY
  | .ldReg _ _ | .orReg _ _ | .andReg _ _ | .xorReg _ _ | .addReg _ _ => .XY
  | .sub _ _ | .shr _ _ | .subn _ _ | .shl _ _ => .XY
  | .drw _ _ _ => .XYN
  | .skp _ | .sknp _ | .ldVxDt _ | .ldVxK _ | .ldDtVx _ | .ldStVx _ => .X
  | .addI _ | .ldF _ | .ldB _ | .ldMemVx _ | .ldVxMem _ => .X

/-- The operands as numbers, in the order of the format's fields (R7: every value is unsigned). -/
def operands : Instr → List Nat
  | .nop | .cls | .ret => []
  | .jp a | .call a | .ldI a | .jpV0 a => [a.toNat]
  | .seImm x b | .sneImm x b | .ldImm x b | .addImm x b | .rnd x b => [x.val, b.toNat]
  | .seReg x y | .sneReg x y => [x.val, y.val]
  | .ldReg x y | .orReg x y | .andReg x y | .xorReg x y | .addReg x y => [x.val, y.val]
  | .sub x y | .shr x y | .subn x y | .shl x y => [x.val, y.val]
  | .drw x y n => [x.val, y.val, n.val]
  | .skp x | .sknp x | .ldVxDt x | .ldVxK x | .ldDtVx x | .ldStVx x => [x.val]
  | .addI x | .ldF x | .ldB x | .ldMemVx x | .ldVxMem x => [x.val]

/-- The instruction's operands are operands of its format. -/
def wf (i : Instr) : Bool :=
  i.format.admits i.operands

end Instr
end Sys2Proof
end

