-- ==== Sys2Proof/Decode.lean ====
section
/-! DEFINITION. Decoding and encoding (spec/30_encoding.md R70 to R77): the fields of a word, the dispatch on nibbles, the
words of no row rejected by name, and the encoder written from the formats of R72. -/

namespace Sys2Proof

/-- Why bytes are no instruction. -/
inductive DecodeReject where
  /-- The word matches no row of R75 (R76): it carries the raw word. -/
  | invalidOpcode (op : Word)
  /-- Fewer than two bytes: no word. `step` never meets this (its fetch reads two bytes, R92); a list of bytes may. Log 24. -/
  | truncated
  deriving DecidableEq, Repr

/-! ### Fields (R71) -/

/-- `op[15:12]`, the major opcode. -/
def nibble1 (op : Word) : Nat := (op.extractLsb' 12 4).toNat

/-- `x = op[11:8]`. -/
def fieldX (op : Word) : Reg := (op.extractLsb' 8 4).toFin

/-- `y = op[7:4]`. -/
def fieldY (op : Word) : Reg := (op.extractLsb' 4 4).toFin

/-- `n = op[3:0]`. -/
def fieldN (op : Word) : Reg := (op.extractLsb' 0 4).toFin

/-- `nn = op[7:0]`. -/
def fieldNN (op : Word) : Byte := op.extractLsb' 0 8

/-- `nnn = op[11:0]`. -/
def fieldNNN (op : Word) : Addr := op.extractLsb' 0 12

/-! ### Dispatch (R74): nibble1 selects the group, a secondary key selects the row -/

/-- Group 0: the whole word is matched. -/
def decodeGroup0 (op : Word) : Option Instr :=
  match (fieldNNN op).toNat with
  | 0x000 => some .nop
  | 0x0E0 => some .cls
  | 0x0EE => some .ret
  | _ => none

/-- Group 5: `n` must be 0. -/
def decodeGroup5 (op : Word) : Option Instr :=
  match (fieldN op).val with
  | 0x0 => some (.seReg (fieldX op) (fieldY op))
  | _ => none

/-- Group 8: `n` selects the row. -/
def decodeGroup8 (op : Word) : Option Instr :=
  let x := fieldX op
  let y := fieldY op
  match (fieldN op).val with
  | 0x0 => some (.ldReg x y)
  | 0x1 => some (.orReg x y)
  | 0x2 => some (.andReg x y)
  | 0x3 => some (.xorReg x y)
  | 0x4 => some (.addReg x y)
  | 0x5 => some (.sub x y)
  | 0x6 => some (.shr x y)
  | 0x7 => some (.subn x y)
  | 0xE => some (.shl x y)
  | _ => none

/-- Group 9: `n` must be 0. -/
def decodeGroup9 (op : Word) : Option Instr :=
  match (fieldN op).val with
  | 0x0 => some (.sneReg (fieldX op) (fieldY op))
  | _ => none

/-- Group E: `nn` selects the row. -/
def decodeGroupE (op : Word) : Option Instr :=
  match (fieldNN op).toNat with
  | 0x9E => some (.skp (fieldX op))
  | 0xA1 => some (.sknp (fieldX op))
  | _ => none

/-- Group F: `nn` selects the row. -/
def decodeGroupF (op : Word) : Option Instr :=
  let x := fieldX op
  match (fieldNN op).toNat with
  | 0x07 => some (.ldVxDt x)
  | 0x0A => some (.ldVxK x)
  | 0x15 => some (.ldDtVx x)
  | 0x18 => some (.ldStVx x)
  | 0x1E => some (.addI x)
  | 0x29 => some (.ldF x)
  | 0x33 => some (.ldB x)
  | 0x55 => some (.ldMemVx x)
  | 0x65 => some (.ldVxMem x)
  | _ => none

/-- The row a word matches, if any (R74, R75). -/
def decodeRow (op : Word) : Option Instr :=
  match nibble1 op with
  | 0x0 => decodeGroup0 op
  | 0x1 => some (.jp (fieldNNN op))
  | 0x2 => some (.call (fieldNNN op))
  | 0x3 => some (.seImm (fieldX op) (fieldNN op))
  | 0x4 => some (.sneImm (fieldX op) (fieldNN op))
  | 0x5 => decodeGroup5 op
  | 0x6 => some (.ldImm (fieldX op) (fieldNN op))
  | 0x7 => some (.addImm (fieldX op) (fieldNN op))
  | 0x8 => decodeGroup8 op
  | 0x9 => decodeGroup9 op
  | 0xA => some (.ldI (fieldNNN op))
  | 0xB => some (.jpV0 (fieldNNN op))
  | 0xC => some (.rnd (fieldX op) (fieldNN op))
  | 0xD => some (.drw (fieldX op) (fieldY op) (fieldN op))
  | 0xE => decodeGroupE op
  | 0xF => decodeGroupF op
  | _ => none

/-- Decode one word, rejecting by name (R76). -/
def decodeWord (op : Word) : Except DecodeReject Instr :=
  match decodeRow op with
  | some i => .ok i
  | none => .error (.invalidOpcode op)

/-- The big-endian word of two bytes, the one at the lower address first (R53, R54). -/
def wordOfBytes (hi lo : Byte) : Word := hi ++ lo

/-- Decode the first instruction of a list of bytes and give the rest of the list (R70: always two bytes). -/
def decode : List Byte → Except DecodeReject (Instr × List Byte)
  | hi :: lo :: rest =>
    match decodeWord (wordOfBytes hi lo) with
    | .ok i => .ok (i, rest)
    | .error r => .error r
  | _ => .error .truncated

/-! ### Encoding (R72: bit 15 on the left, `++` puts its left side in the high bits, R7) -/

/-- A 4-bit operand field. -/
def nib (x : Reg) : BitVec 4 := BitVec.ofFin x

/-- Format NNN: `oooo nnnn nnnn nnnn`. -/
def packNNN (o : BitVec 4) (nnn : Addr) : Word := o ++ nnn

/-- Format XNN: `oooo xxxx nnnn nnnn`. -/
def packXNN (o : BitVec 4) (x : Reg) (nn : Byte) : Word := o ++ (nib x ++ nn)

/-- Formats XY and XYN: `oooo xxxx yyyy nnnn`, the last nibble fixed in format XY. -/
def packXYN (o : BitVec 4) (x y : Reg) (n : BitVec 4) : Word := o ++ (nib x ++ (nib y ++ n))

/-- The word of an instruction. -/
def encode : Instr → Word
  | .nop => 0x0000
  | .cls => 0x00E0
  | .ret => 0x00EE
  | .jp nnn => packNNN 0x1 nnn
  | .call nnn => packNNN 0x2 nnn
  | .seImm x nn => packXNN 0x3 x nn
  | .sneImm x nn => packXNN 0x4 x nn
  | .seReg x y => packXYN 0x5 x y 0x0
  | .ldImm x nn => packXNN 0x6 x nn
  | .addImm x nn => packXNN 0x7 x nn
  | .ldReg x y => packXYN 0x8 x y 0x0
  | .orReg x y => packXYN 0x8 x y 0x1
  | .andReg x y => packXYN 0x8 x y 0x2
  | .xorReg x y => packXYN 0x8 x y 0x3
  | .addReg x y => packXYN 0x8 x y 0x4
  | .sub x y => packXYN 0x8 x y 0x5
  | .shr x y => packXYN 0x8 x y 0x6
  | .subn x y => packXYN 0x8 x y 0x7
  | .shl x y => packXYN 0x8 x y 0xE
  | .sneReg x y => packXYN 0x9 x y 0x0
  | .ldI nnn => packNNN 0xA nnn
  | .jpV0 nnn => packNNN 0xB nnn
  | .rnd x nn => packXNN 0xC x nn
  | .drw x y n => packXYN 0xD x y (nib n)
  | .skp x => packXNN 0xE x 0x9E
  | .sknp x => packXNN 0xE x 0xA1
  | .ldVxDt x => packXNN 0xF x 0x07
  | .ldVxK x => packXNN 0xF x 0x0A
  | .ldDtVx x => packXNN 0xF x 0x15
  | .ldStVx x => packXNN 0xF x 0x18
  | .addI x => packXNN 0xF x 0x1E
  | .ldF x => packXNN 0xF x 0x29
  | .ldB x => packXNN 0xF x 0x33
  | .ldMemVx x => packXNN 0xF x 0x55
  | .ldVxMem x => packXNN 0xF x 0x65

/-- The byte of a word at the lower address (R54). -/
def hiByte (op : Word) : Byte := op.extractLsb' 8 8

/-- The byte of a word at the higher address (R54). -/
def loByte (op : Word) : Byte := op.extractLsb' 0 8

/-- The two bytes of an instruction as memory holds them. -/
def encodeBytes (i : Instr) : List Byte := [hiByte (encode i), loByte (encode i)]

/-- The low `nbits` bits of `w` as the instruction word, every bit above them 0. -/
def tableWord (nbits w : Nat) : Word := BitVec.ofNat 16 (w % 2 ^ nbits)

/-- What the decoder reads from the instruction whose bits are `w`, numbered as spec/opcode_table.json numbers them: the
word is laid out big-endian, as the hardware stores it, and given to `decode`. -/
def decodeTableWord (nbits w : Nat) : Option Instr :=
  match decode [hiByte (tableWord nbits w), loByte (tableWord nbits w)] with
  | .ok (i, _) => some i
  | .error _ => none

end Sys2Proof
end

