-- ==== Sys2Proof/Config.lean ====
section
/-! DEFINITION. The implementation parameters of spec/00_scope.md R5: the fixed sizes, the two OPEN parameters, and the
free value behind Cxnn. The defaults of the OPEN parameters stand in Machine/Defaults.lean. -/

namespace Sys2Proof

/-- The font table: 16 glyphs of 5 bytes, top row first (R60). -/
abbrev FontRom := Vector (Vector Byte 5) 16

/-- The two OPEN parameters of R5, "a named parameter the model takes as an argument". DESIGN CHOICE (log 2): they are held
in `State.config`, which nothing writes, so that every statement about every state holds for every value of them. -/
structure Config where
  /-- `FX1E_SETS_VF` (R5, R171): whether Fx1E writes VF. -/
  fx1eSetsVF : Bool
  /-- `FONT_ROM` (R5, R60). -/
  fontRom : FontRom
  deriving DecidableEq, Repr

namespace Config

/-- `MEM_SIZE` (R5): addresses 0x000-0xFFF. -/
abbrev memSize : Nat := 4096

/-- `FONT_BASE` (R5, decision D1 of the spec; log 10). -/
abbrev fontBase : Nat := 0x000

/-- `FONT_GLYPH_BYTES` (R5). -/
abbrev glyphBytes : Nat := 5

/-- The first address above the font table (R59). -/
abbrev fontEnd : Nat := 0x050

/-- `PROGRAM_START` (R5). -/
abbrev programStart : Nat := 0x200

/-- `STACK_DEPTH` (R5). -/
abbrev stackDepth : Nat := 16

/-- `GRID_W` (R5). -/
abbrev gridW : Nat := 64

/-- `GRID_H` (R5). -/
abbrev gridH : Nat := 32

/-- `draw8()` (R152): the free value of the n-th execution of Cxnn. It has no body, so nothing is known of it. Log 1. -/
opaque draw8 : Nat → Byte

end Config
end Sys2Proof
end

