-- ==== Sys2Proof/Machine/Defaults.lean ====
section
/-! DEFINITION. The default values of the two OPEN parameters (spec/00_scope.md R5) and the program counter after reset. They
stand here, and not in Config or State, so that a later repair can mend them. -/

namespace Sys2Proof.Machine

/-- The default `FONT_ROM` (R60). PRESUMED: the spec itself takes the bytes from general knowledge (G2). Log 2. -/
def defaultFont : FontRom := #v[
  #v[0xF0, 0x90, 0x90, 0x90, 0xF0],
  #v[0x20, 0x60, 0x20, 0x20, 0x70],
  #v[0xF0, 0x10, 0xF0, 0x80, 0xF0],
  #v[0xF0, 0x10, 0xF0, 0x10, 0xF0],
  #v[0x90, 0x90, 0xF0, 0x10, 0x10],
  #v[0xF0, 0x80, 0xF0, 0x10, 0xF0],
  #v[0xF0, 0x80, 0xF0, 0x90, 0xF0],
  #v[0xF0, 0x10, 0x20, 0x40, 0x40],
  #v[0xF0, 0x90, 0xF0, 0x90, 0xF0],
  #v[0xF0, 0x90, 0xF0, 0x10, 0xF0],
  #v[0xF0, 0x90, 0xF0, 0x90, 0x90],
  #v[0xE0, 0x90, 0xE0, 0x90, 0xE0],
  #v[0xF0, 0x80, 0x80, 0x80, 0xF0],
  #v[0xE0, 0x90, 0x90, 0x90, 0xE0],
  #v[0xF0, 0x80, 0xF0, 0x80, 0xF0],
  #v[0xF0, 0x80, 0xF0, 0x80, 0x80]]

/-- The default parameters (R5): `FX1E_SETS_VF` false, `FONT_ROM` as in R60. -/
def defaultConfig : Config where
  fx1eSetsVF := false
  fontRom := defaultFont

/-- The program counter after reset (R38): the start-of-program address 0x200. -/
def resetPc : Word := 0x0200

end Sys2Proof.Machine
end

