-- ==== Sys2Proof/Machine/State.lean ====
section
/-! DEFINITION. The machine's state (spec/10_state.md R20), its errors (spec/60_exceptions.md R210), its refusals (R211) and
its reset (R38). -/

namespace Sys2Proof.Machine

/-- The errors of R210. An error of a step is TAKEN: the step answers a next state in mode `Faulted(e)` (R94), so no step
ends in `Outcome.fault`. Safe: the state after an error is the one the spec gives. Log 3. -/
inductive Fault where
  /-- Raised by the fetch, Dxyn, Fx33, Fx55 and Fx65: an accessed address is 4096 or more; it carries the first one (R51 to
  R53). Safe: the spec names the error. -/
  | outOfBounds (addr : Nat)
  /-- Raised by 2nnn when `sp = 16` (R27). Safe: the spec names the error. -/
  | stackOverflow
  /-- Raised by 00EE when `sp = 0` (R28). Safe: the spec names the error. -/
  | stackUnderflow
  /-- Raised by the decoder for a word of no row, which it carries (R76). Safe: the spec names the error. -/
  | invalidOpcode (op : Word)
  /-- A result of the host's `load_program` only, never of a step (R99, R210). Safe: the spec names the error. -/
  | programTooLarge
  deriving DecidableEq, Repr

/-- The cases without meaning: a refused step has no next state and no result (R211). -/
inductive Refusal where
  /-- An instruction without a meaning in the model, by its mnemonic: raised by exec's refused arms (there are none). Safe. -/
  | notModelled (mnemonic : String)
  /-- Fx33 or Fx55 would write below 0x050 (R52, R211). Safe: nothing about such a run can be proved. Log 5. -/
  | fontRegionWrite (addr : Nat)
  /-- Ex9E or ExA1 with `V[x] > 15` (R190, R191, R211). Safe. Log 5. -/
  | keyIndexRange (value : Byte)
  /-- Fx29 with `V[x] > 15` (R172, R211). Safe. Log 5. -/
  | fontDigitRange (value : Byte)
  deriving DecidableEq, Repr

/-- The interpreter mode (R32). -/
inductive Mode where
  /-- The next step fetches at `pc`. -/
  | running
  /-- Blocked after Fx0A, with its register index. -/
  | awaitingKey (x : Reg)
  /-- Halted on an error. -/
  | faulted (e : Fault)
  deriving DecidableEq, Repr

/-- Memory: address and byte pairs in the canonical form of `Memory.wf` (Machine/Ops.lean); an address that is not listed
reads as it did after reset (R38, R59). -/
abbrev Memory := List Host.Cell

/-- The pixel grid, row-major: `grid[row][column]`, 32 rows of 64 (R31). -/
abbrev Grid := Vector (Vector Bool 64) 32

/-- The state tuple of R20, and two fields of the model's own (`config`, `draws`). -/
structure State where
  /-- V0 to VF (R22). -/
  v : Vector Byte 16
  /-- The index register (R24). -/
  i : Word
  /-- The program counter (R25). -/
  pc : Word
  /-- The call stack's entries (R26). -/
  stack : Vector Word 16
  /-- The number of live stack entries, 0 to 16 (R26). -/
  sp : Fin 17
  /-- The delay timer (R29). -/
  dt : Byte
  /-- The sound timer (R29). -/
  st : Byte
  /-- The key vector, true = pressed (R30). -/
  key : Vector Bool 16
  /-- The pixel grid (R31). -/
  grid : Grid
  /-- The interpreter mode (R32). -/
  mode : Mode
  /-- Memory (R21). -/
  mem : Memory
  /-- The model's own field: the OPEN parameters of R5, which nothing writes (log 2). -/
  config : Config
  /-- The model's own field: how many draws Cxnn has taken (R152; log 1). -/
  draws : Nat
  deriving DecidableEq, Repr

/-- What a check before the first write finds (R93): an error to take, or a refusal. -/
inductive Stop where
  | raise (e : Fault)
  | refuse (r : Refusal)
  deriving DecidableEq, Repr

/-- The outcome of a step or of an instruction. -/
abbrev Result := Host.Outcome State Fault Refusal

/-- The state after construction or `reset()` of a core with parameters `c` (R38, R240, R241). The draw counter's value is
a DESIGN CHOICE (log 1). -/
def State.resetWith (c : Config) : State where
  v := Vector.replicate 16 0
  i := 0
  pc := resetPc
  stack := Vector.replicate 16 0
  sp := 0
  dt := 0
  st := 0
  key := Vector.replicate 16 false
  grid := Vector.replicate 32 (Vector.replicate 64 false)
  mode := .running
  mem := []
  config := c
  draws := 0

/-- The machine right after reset, with the default parameters of R5. -/
def State.reset : State := State.resetWith defaultConfig

end Sys2Proof.Machine
end

