-- ==== Sys2Proof/Machine/Operands.lean ====
section
/-! DEFINITION. The operand forms: registers and VF (spec/10_state.md R22, R23), immediates and absolute targets
(spec/30_encoding.md R73), the implicit V0 of Bnnn, and the effective addresses `I + k` (spec/20_memory.md R57). -/

namespace Sys2Proof.Machine

/-- `V[x]` (R8). -/
def State.readV (s : State) (x : Reg) : Byte := s.v.get x

/-- `V[x] <- b` (R8). -/
def State.writeV (s : State) (x : Reg) (b : Byte) : State := { s with v := s.v.set x b }

/-- `zext_16(nnn)`: an absolute target or index value (R73). -/
def zextAddr (nnn : Addr) : Word := nnn.setWidth 16

/-- `zext_16` of a byte. -/
def zextByte (b : Byte) : Word := b.setWidth 16

/-- `nnn + V[0]`, which fits 16 bits (R118). -/
def State.offsetTarget (s : State) (nnn : Addr) : Word := zextAddr nnn + zextByte (s.readV 0)

/-- `I + k` as a natural number, not reduced (R57; decision D24 of the spec, log 17). -/
def State.indexAddr (s : State) (k : Nat) : Nat := s.i.toNat + k

end Sys2Proof.Machine
end

