-- ==== Sys2Proof/Machine/Flags.lean ====
section
/-! DEFINITION. Every flag computation (spec/10_state.md R34). VF is the only flag and holds 0 or 1 after a flag write. -/

namespace Sys2Proof.Machine

/-- A flag as the value VF receives. -/
def flagByte (b : Bool) : Byte := if b then 1 else 0

/-- 8xy4: carry (R147). -/
def carryFlag (a b : Byte) : Byte := flagByte (decide (a.toNat + b.toNat > 255))

/-- 8xy5 and 8xy7: 1 when `a - b` needs no borrow (R148, R150). -/
def noBorrowFlag (a b : Byte) : Byte := flagByte (decide (a.toNat ≥ b.toNat))

/-- 8xy6: the bit shifted out, `b AND 1` (R149). -/
def shiftRightFlag (b : Byte) : Byte := b &&& 1

/-- 8xyE: the bit shifted out, `b >> 7` (R151). -/
def shiftLeftFlag (b : Byte) : Byte := b >>> 7

/-- Dxyn: collision (R133). -/
def collisionFlag (collided : Bool) : Byte := flagByte collided

/-- Fx1E with FX1E_SETS_VF: the unreduced sum is above 0x0FFF (R171; decision D5 of the spec, log 27). -/
def indexOverflowFlag (i : Word) (b : Byte) : Byte := flagByte (decide (i.toNat + b.toNat > 0x0FFF))

/-- The result is written to V[x] and the flag to VF last, so with x = 15 the flag stays (R140; decision D6 of the spec,
log 15). -/
def State.writeWithFlag (s : State) (x : Reg) (result flag : Byte) : State :=
  (s.writeV x result).writeV VF flag

end Sys2Proof.Machine
end

