-- ==== Sys2Proof/Machine/Ops.lean ====
section
/-! DEFINITION. The shared operations over memory, the stack, the grid and the program counter; the checks that come before
an instruction's first write; taking an error; and the reset, which is the only way back from one. -/

namespace Sys2Proof.Machine

/-! ### Memory in canonical form -/

/-- What an address that is not listed reads as: the font table below 0x050, 0x00 elsewhere (R38, R59, R60). -/
def unlisted (font : FontRom) (a : Nat) : Byte :=
  if h : a < Config.fontEnd then
    (font[a / 5]'(by simp only [Config.fontEnd] at h; omega))[a % 5]'(by omega)
  else 0

/-- The byte listed for an address. -/
def Memory.lookup : Memory → Nat → Option Byte
  | [], _ => none
  | (b, w) :: m, a => if b = a then some w else lookup m a

/-- List a byte for an address, in address order. -/
def Memory.insert (a : Nat) (w : Byte) : Memory → Memory
  | [] => [(a, w)]
  | (b, u) :: m =>
    if a < b then (a, w) :: (b, u) :: m
    else if a = b then (a, w) :: m
    else (b, u) :: insert a w m

/-- Unlist an address. -/
def Memory.erase (a : Nat) : Memory → Memory
  | [] => []
  | (b, u) :: m => if b = a then erase a m else (b, u) :: erase a m

/-- The byte at an address. -/
def Memory.read (font : FontRom) (m : Memory) (a : Nat) : Byte :=
  (m.lookup a).getD (unlisted font a)

/-- Write one byte: writing what the unlisted address reads as unlists it. -/
def Memory.write (font : FontRom) (m : Memory) (a : Nat) (w : Byte) : Memory :=
  if w = unlisted font a then m.erase a else m.insert a w

/-- The canonical form from an address on: addresses strictly rising from `lo`, each below 4096, no entry equal to what the
unlisted address reads as. -/
def Memory.wfFrom (font : FontRom) : Nat → Memory → Bool
  | _, [] => true
  | lo, (b, u) :: m =>
    decide (lo ≤ b) && decide (b < Config.memSize) && decide (u ≠ unlisted font b) && wfFrom font (b + 1) m

/-- The canonical form of memory. -/
def Memory.wf (font : FontRom) (m : Memory) : Bool := m.wfFrom font 0

/-- `mem[a]`: one byte, with no check (the checks are `readStop` and `writeStop`). -/
def State.byteAt (s : State) (a : Nat) : Byte := s.mem.read s.config.fontRom a

/-- `mem[a] <- w`, with no check. -/
def State.storeByte (s : State) (a : Nat) (w : Byte) : State :=
  { s with mem := s.mem.write s.config.fontRom a w }

/-- Bytes to consecutive increasing addresses from `a` (R56). -/
def State.storeBytes (s : State) (a : Nat) : List Byte → State
  | [] => s
  | w :: ws => (s.storeByte a w).storeBytes (a + 1) ws

/-- `n` bytes from consecutive increasing addresses from `a` (R56). -/
def State.bytesFrom (s : State) (a n : Nat) : List Byte :=
  (List.range n).map fun k => s.byteAt (a + k)

/-! ### Taking an error, and the reset that alone leaves it -/

/-- `raise e`: the step returns Err(e) and the mode becomes `Faulted(e)`; nothing is saved, control goes nowhere, and the
rest of the state stays as it is (R94, R214). -/
def raiseError (e : Fault) (s : State) : Result := .next { s with mode := .faulted e }

/-- `refuse r`: the step has no next state (R211). -/
def refuseStep (r : Refusal) : Result := .refused r

/-- `reset()` (R240): it acts the same in every mode and is the only way out of `Faulted(e)` (R96, R215). The parameters are
the core's and stay. The draw counter goes on, so that a draw after a reset is as fresh as any other (R152; log 1). -/
def resetMachine (s : State) : State := { State.resetWith s.config with draws := s.draws }

/-! ### Checks before the first write (R93, R213) -/

/-- `MemRead`'s check of one address (R51). -/
def readStop (a : Nat) : Option Stop :=
  if a ≥ Config.memSize then some (.raise (.outOfBounds a)) else none

/-- `MemWrite`'s checks of one address: OutOfBounds first, then the font region (R52, R213; log 5). -/
def writeStop (a : Nat) : Option Stop :=
  if a ≥ Config.memSize then some (.raise (.outOfBounds a))
  else if a < Config.fontEnd then some (.refuse (.fontRegionWrite a))
  else none

/-- The first stop among the addresses `I + 0 .. I + (n-1)`, in increasing order (R213; log 22). -/
def State.firstStop (s : State) (check : Nat → Option Stop) (n : Nat) : Option Stop :=
  (List.range n).findSome? fun k => check (s.indexAddr k)

/-- All-or-nothing execute phase: with a stop, none of the writes; without, the state `t` they give (R93; log 11). -/
def guarded (stop : Option Stop) (s t : State) : Result :=
  match stop with
  | some (.raise e) => raiseError e s
  | some (.refuse r) => refuseStep r
  | none => .next t

/-! ### The call stack (R27, R28) -/

/-- `push(a)` (R27). -/
def push (a : Word) (s : State) : Except Fault State :=
  if h : s.sp.val < Config.stackDepth then
    .ok { s with stack := s.stack.set s.sp.val a, sp := ⟨s.sp.val + 1, by simp only [Config.stackDepth] at h; omega⟩ }
  else .error .stackOverflow

/-- `pop()` (R28): the value and the state after it. -/
def pop (s : State) : Except Fault (Word × State) :=
  if h : s.sp.val = 0 then .error .stackUnderflow
  else .ok (s.stack[s.sp.val - 1]'(by omega), { s with sp := ⟨s.sp.val - 1, by omega⟩ })

/-! ### The program counter -/

/-- `pc <- target`. -/
def State.jump (s : State) (target : Word) : State := { s with pc := target }

/-- `pc <- pc + 2`: the advance of the fetch (R92), and a taken skip (R10). Log 7. -/
def State.advance (s : State) : State := s.jump (s.pc + 2)

/-- A conditional skip (R10). -/
def State.skipIf (s : State) (c : Bool) : State := if c then s.advance else s

/-! ### The pixel grid (R31, R130, R131) -/

/-- `grid[c][r]`: the pixel in column `c`, row `r` (R31). -/
def Grid.pixel (g : Grid) (c : Fin 64) (r : Fin 32) : Bool := (g.get r).get c

/-- `grid[c][r] <- not grid[c][r]`. -/
def Grid.toggle (g : Grid) (c : Fin 64) (r : Fin 32) : Grid :=
  g.set r ((g.get r).set c (!g.pixel c r))

/-- The grid with every cell false. -/
def Grid.clear : Grid := Vector.replicate 32 (Vector.replicate 64 false)

/-- `(cx + c) mod 64` (R130). -/
def wrapColumn (a : Nat) : Fin 64 := ⟨a % Config.gridW, Nat.mod_lt _ (by decide)⟩

/-- `(cy + r) mod 32` (R130; conflict C1, decision D27 of the spec, log 13). -/
def wrapRow (a : Nat) : Fin 32 := ⟨a % Config.gridH, Nat.mod_lt _ (by decide)⟩

/-- Column offset `c` of a sprite byte is bit `7 - c` (R131; decision D3 of the spec, log 13). -/
def spriteBit (b : Byte) (c : Nat) : Bool := b.getLsbD (7 - c)

/-- One sprite pixel: a 1 bit toggles its cell and notes a collision when the cell was set; a 0 bit does nothing (R133). -/
def drawPixel (cx cy r : Nat) (b : Byte) (k : Grid × Bool) (c : Nat) : Grid × Bool :=
  if spriteBit b c then
    (k.1.toggle (wrapColumn (cx + c)) (wrapRow (cy + r)), k.2 || k.1.pixel (wrapColumn (cx + c)) (wrapRow (cy + r)))
  else k

/-- One sprite row of 8 pixels (R133). -/
def drawRow (cx cy r : Nat) (b : Byte) (k : Grid × Bool) : Grid × Bool :=
  (List.range 8).foldl (drawPixel cx cy r b) k

/-- The sprite's rows from row offset `r` on, top row first (R133): the grid, and whether a pixel went from set to unset. -/
def drawRows (cx cy : Nat) : Nat → List Byte → Grid × Bool → Grid × Bool
  | _, [], k => k
  | r, b :: bs, k => drawRows cx cy (r + 1) bs (drawRow cx cy r b k)

/-! ### Register transfers (R174, R175) -/

/-- V0 to Vx, in order. -/
def State.regsUpTo (s : State) (x : Reg) : List Byte := s.v.toList.take (x.val + 1)

/-- Bytes into consecutive registers from index `k`. -/
def fillRegs (v : Vector Byte 16) (k : Nat) : List Byte → Vector Byte 16
  | [] => v
  | b :: bs => fillRegs (v.setIfInBounds k b) (k + 1) bs

/-! ### The key vector -/

/-- The lowest-numbered pressed key (R95; decision D13 of the spec, log 12). -/
def lowestKey (key : Vector Bool 16) : Option Nat := key.toList.findIdx? id

end Sys2Proof.Machine
end

