-- ==== Sys2Proof/Machine/Alu.lean ====
section
/-! DEFINITION. Register loads, arithmetic, logic, shifts and random (spec/43_alu.md R140 to R153). Arithmetic is on natural
numbers and reduced modulo 256 at the write (R7, R153). -/

namespace Sys2Proof.Machine

/-- R141: `V[x] <- nn`. -/
def execLdImm (x : Reg) (nn : Byte) (s : State) : Result := .next (s.writeV x nn)

/-- R142: `V[x] <- (V[x] + nn) mod 256`; VF is not written as a flag. -/
def execAddImm (x : Reg) (nn : Byte) (s : State) : Result :=
  .next (s.writeV x (BitVec.ofNat 8 (((s.readV x).toNat + nn.toNat) % 256)))

/-- R143: `V[x] <- V[y]`. -/
def execLdReg (x y : Reg) (s : State) : Result := .next (s.writeV x (s.readV y))

/-- R144: `V[x] <- V[x] OR V[y]`; VF is not cleared. -/
def execOrReg (x y : Reg) (s : State) : Result := .next (s.writeV x (s.readV x ||| s.readV y))

/-- R145: `V[x] <- V[x] AND V[y]`; VF is not cleared. -/
def execAndReg (x y : Reg) (s : State) : Result := .next (s.writeV x (s.readV x &&& s.readV y))

/-- R146: `V[x] <- V[x] XOR V[y]`; VF is not cleared. -/
def execXorReg (x y : Reg) (s : State) : Result := .next (s.writeV x (s.readV x ^^^ s.readV y))

/-- `(a + b) mod 256` (R147). -/
def sumByte (a b : Byte) : Byte := BitVec.ofNat 8 ((a.toNat + b.toNat) % 256)

/-- `(a + 256 - b) mod 256` (R148, R150). -/
def diffByte (a b : Byte) : Byte := BitVec.ofNat 8 ((a.toNat + 256 - b.toNat) % 256)

/-- R147: sum and carry. -/
def execAddReg (x y : Reg) (s : State) : Result :=
  .next (s.writeWithFlag x (sumByte (s.readV x) (s.readV y)) (carryFlag (s.readV x) (s.readV y)))

/-- R148: `V[x] - V[y]` and no-borrow. -/
def execSub (x y : Reg) (s : State) : Result :=
  .next (s.writeWithFlag x (diffByte (s.readV x) (s.readV y)) (noBorrowFlag (s.readV x) (s.readV y)))

/-- R149: `V[y] >> 1`; the source is V[y] (conflict C8, decision D4 of the spec, log 14). -/
def execShr (x y : Reg) (s : State) : Result :=
  .next (s.writeWithFlag x (s.readV y >>> 1) (shiftRightFlag (s.readV y)))

/-- R150: `V[y] - V[x]` and no-borrow. -/
def execSubn (x y : Reg) (s : State) : Result :=
  .next (s.writeWithFlag x (diffByte (s.readV y) (s.readV x)) (noBorrowFlag (s.readV y) (s.readV x)))

/-- R151: `(V[y] << 1) mod 256`; the source is V[y] (log 14). -/
def execShl (x y : Reg) (s : State) : Result :=
  .next (s.writeWithFlag x (s.readV y <<< 1) (shiftLeftFlag (s.readV y)))

/-- `draw8()`: the next free byte, and the state that has taken it (R152, R36; log 1). -/
def State.draw8 (s : State) : Byte × State := (Config.draw8 s.draws, { s with draws := s.draws + 1 })

/-- R152: `r <- draw8(); V[x] <- nn AND r`. -/
def execRnd (x : Reg) (nn : Byte) (s : State) : Result :=
  .next (s.draw8.2.writeV x (nn &&& s.draw8.1))

end Sys2Proof.Machine
end

