-- ==== Sys2Proof/Machine/Control.lean ====
section
/-! DEFINITION. Control flow and skips (spec/41_control.md R110 to R119). Each meaning is the execute phase: it runs on the
state after the fetch, so `s.pc` is the post-fetch value (R93). -/

namespace Sys2Proof.Machine

/-- R110: nothing. -/
def execNop (s : State) : Result := .next s

/-- R111: `a <- pop(); pc <- a`. -/
def execRet (s : State) : Result :=
  match pop s with
  | .ok (a, t) => .next (t.jump a)
  | .error e => raiseError e s

/-- R112: `pc <- zext_16(nnn)`. -/
def execJp (nnn : Addr) (s : State) : Result := .next (s.jump (zextAddr nnn))

/-- R113: `push(pc); pc <- zext_16(nnn)`. -/
def execCall (nnn : Addr) (s : State) : Result :=
  match push s.pc s with
  | .ok t => .next (t.jump (zextAddr nnn))
  | .error e => raiseError e s

/-- R114: `if V[x] = nn then pc <- pc + 2`. -/
def execSeImm (x : Reg) (nn : Byte) (s : State) : Result := .next (s.skipIf (s.readV x == nn))

/-- R115: `if V[x] != nn then pc <- pc + 2`. -/
def execSneImm (x : Reg) (nn : Byte) (s : State) : Result := .next (s.skipIf (s.readV x != nn))

/-- R116: `if V[x] = V[y] then pc <- pc + 2`. -/
def execSeReg (x y : Reg) (s : State) : Result := .next (s.skipIf (s.readV x == s.readV y))

/-- R117: `if V[x] != V[y] then pc <- pc + 2`. -/
def execSneReg (x y : Reg) (s : State) : Result := .next (s.skipIf (s.readV x != s.readV y))

/-- R118: `pc <- zext_16(nnn) + zext_16(V[0])`. -/
def execJpV0 (nnn : Addr) (s : State) : Result := .next (s.jump (s.offsetTarget nnn))

end Sys2Proof.Machine
end

