-- ==== Sys2Proof/Machine/Display.lean ====
section
/-! DEFINITION. The display instructions (spec/42_display.md R130 to R133). -/

namespace Sys2Proof.Machine

/-- R132: every cell false. -/
def execCls (s : State) : Result := .next { s with grid := Grid.clear }

/-- The `n` sprite bytes at `I` (R133). -/
def State.sprite (s : State) (n : Reg) : List Byte := s.bytesFrom s.i.toNat n.val

/-- The grid after the draw and whether a pixel went from set to unset (R133). -/
def State.blit (s : State) (x y n : Reg) : Grid × Bool :=
  drawRows (s.readV x).toNat (s.readV y).toNat 0 (s.sprite n) (s.grid, false)

/-- R133: all reads are checked first; the coordinates are sampled before VF is written; VF is written last, on every
execution. -/
def execDrw (x y n : Reg) (s : State) : Result :=
  guarded (s.firstStop readStop n.val) s
    (State.writeV { s with grid := (s.blit x y n).1 } VF (collisionFlag (s.blit x y n).2))

end Sys2Proof.Machine
end

