-- ==== Sys2Proof/Machine/Index.lean ====
section
/-! DEFINITION. The index register and memory transfers (spec/44_index_memory.md R170 to R175). -/

namespace Sys2Proof.Machine

/-- R170: `I <- zext_16(nnn)`. -/
def execLdI (nnn : Addr) (s : State) : Result := .next { s with i := zextAddr nnn }

/-- Fx1E under a given `FX1E_SETS_VF` (R171): I wraps modulo 65536; with the parameter, VF is written last. -/
def State.addIndex (s : State) (setsVF : Bool) (x : Reg) : State :=
  let t := { s with i := BitVec.ofNat 16 ((s.i.toNat + (s.readV x).toNat) % 65536) }
  if setsVF then t.writeV VF (indexOverflowFlag s.i (s.readV x)) else t

/-- R171, with the parameter of the core. -/
def execAddI (x : Reg) (s : State) : Result := .next (s.addIndex s.config.fx1eSetsVF x)

/-- `FONT_BASE + 5 * d` (R172; decision D1 of the spec, log 10). -/
def glyphAddr (d : Byte) : Word := BitVec.ofNat 16 (Config.fontBase + Config.glyphBytes * d.toNat)

/-- R172: refused for a digit above 15 (log 5). -/
def execLdF (x : Reg) (s : State) : Result :=
  if (s.readV x).toNat > 15 then refuseStep (.fontDigitRange (s.readV x))
  else .next { s with i := glyphAddr (s.readV x) }

/-- The decimal digits of a byte: hundreds, tens, ones (R173). -/
def decimalDigits (b : Byte) : List Byte :=
  [BitVec.ofNat 8 (b.toNat / 100), BitVec.ofNat 8 (b.toNat / 10 % 10), BitVec.ofNat 8 (b.toNat % 10)]

/-- R173: the checks of I, I+1, I+2 come first; I is unchanged. -/
def execLdB (x : Reg) (s : State) : Result :=
  guarded (s.firstStop writeStop 3) s (s.storeBytes s.i.toNat (decimalDigits (s.readV x)))

/-- R174: V0 to Vx to memory; I is unchanged (decision D16 of the spec, log 16). -/
def execLdMemVx (x : Reg) (s : State) : Result :=
  guarded (s.firstStop writeStop (x.val + 1)) s (s.storeBytes s.i.toNat (s.regsUpTo x))

/-- R175: memory to V0 to Vx; I is unchanged (log 16). -/
def execLdVxMem (x : Reg) (s : State) : Result :=
  guarded (s.firstStop readStop (x.val + 1)) s
    { s with v := fillRegs s.v 0 (s.bytesFrom s.i.toNat (x.val + 1)) }

end Sys2Proof.Machine
end

