-- ==== Sys2Proof/Machine/Keys.lean ====
section
/-! DEFINITION. Keys and timers (spec/45_keys_timers.md R190 to R195), and the poll of the key wait (R95). -/

namespace Sys2Proof.Machine

/-- A skip on the key `V[x]`: refused above 15, else it skips when the key's state is `want` (R190, R191; log 5). -/
def skipOnKey (want : Bool) (x : Reg) (s : State) : Result :=
  if h : (s.readV x).toNat > 15 then refuseStep (.keyIndexRange (s.readV x))
  else .next (s.skipIf (s.key[(s.readV x).toNat]'(by omega) == want))

/-- R190: skip if pressed. -/
def execSkp (x : Reg) (s : State) : Result := skipOnKey true x s

/-- R191: skip if not pressed. -/
def execSknp (x : Reg) (s : State) : Result := skipOnKey false x s

/-- R192: `V[x] <- DT`. -/
def execLdVxDt (x : Reg) (s : State) : Result := .next (s.writeV x s.dt)

/-- R193: `mode <- AwaitingKey(x)`; the wait ends in a later step (log 12). -/
def execLdVxK (x : Reg) (s : State) : Result := .next { s with mode := .awaitingKey x }

/-- R194: `DT <- V[x]`. -/
def execLdDtVx (x : Reg) (s : State) : Result := .next { s with dt := s.readV x }

/-- R195: `ST <- V[x]`. -/
def execLdStVx (x : Reg) (s : State) : Result := .next { s with st := s.readV x }

/-- R95: a step in `AwaitingKey(x)` polls the key vector and does not fetch. -/
def pollKeys (x : Reg) (s : State) : State :=
  match lowestKey s.key with
  | some k => { s.writeV x (BitVec.ofNat 8 k) with mode := .running }
  | none => s

end Sys2Proof.Machine
end

