-- ==== Sys2Proof/Machine/Loop.lean ====
section
/-! DEFINITION. The interpreter loop (spec/40_interpreter_loop.md R91 to R96): the fetch, the running step, the step in the
other modes, and where a program's words are placed. -/

namespace Sys2Proof.Machine

/-- `MemRead(addr, 2)`: the big-endian word at `addr`, or OutOfBounds with the first offending address (R53). -/
def memReadWord (a : Nat) (s : State) : Except Fault Word :=
  if a ≥ Config.memSize then .error (.outOfBounds a)
  else if a + 1 ≥ Config.memSize then .error (.outOfBounds (a + 1))
  else .ok (wordOfBytes (s.byteAt a) (s.byteAt (a + 1)))

/-- The fetch's read at `pc` (R92). -/
def fetchWord (s : State) : Except Fault Word := memReadWord s.pc.toNat s

/-- Decode and execute the fetched word, on the state after the fetch; a word of no row raises InvalidOpcode (R76, R91,
R93). -/
def runWord (op : Word) (s : State) : Result :=
  match decodeRow op with
  | some i => exec i s
  | none => raiseError (.invalidOpcode op) s

/-- A step in mode Running (R91): fetch, advance, decode, execute; a fetch error leaves `pc` (R92; decision D8 of the spec,
log 11). -/
def stepRunning (s : State) : Result :=
  match fetchWord s with
  | .ok op => runWord op s.advance
  | .error e => raiseError e s

/-- A step in mode `AwaitingKey(x)` (R95). -/
def stepAwaiting (x : Reg) (s : State) : Result := .next (pollKeys x s)

/-- A step in mode `Faulted(e)` changes nothing (R96; decision D9 of the spec, log 4). -/
def stepFaulted (s : State) : Result := .next s

/-- The address a placed word is fetched from: `pc`, or 0x200 where no word fits at `pc` (log 9). -/
def placeAddr (s : State) : Nat :=
  if s.pc.toNat + 1 < Config.memSize then s.pc.toNat else Config.programStart

/-- `s` in mode Running with the word `op` stored, big-endian, where the next step fetches (log 9). -/
def placeWord (s : State) (op : Word) : State :=
  { s.storeBytes (placeAddr s) [hiByte op, loByte op] with
    pc := BitVec.ofNat 16 (placeAddr s), mode := .running }

end Sys2Proof.Machine
end

