-- ==== Sys2Proof/Machine/Step.lean ====
section
/-! DEFINITION. The host's `step()` (spec/40_interpreter_loop.md R91). Its parts stand in Machine/Loop.lean. -/

namespace Sys2Proof.Machine

/-- `step()`: by mode (R91, R95, R96). -/
def step (s : State) : Host.Outcome State Fault Refusal :=
  match s.mode with
  | .running => stepRunning s
  | .awaitingKey x => stepAwaiting x s
  | .faulted _ => stepFaulted s

/-- `s` with the instruction whose bits are `w` (numbered as spec/opcode_table.json numbers them) stored where `step`
fetches next. Log 9. -/
def State.withFetchWord (s : State) (nbits w : Nat) : State := placeWord s (tableWord nbits w)

end Sys2Proof.Machine
end

