-- ==== Sys2Proof/Machine/HostOps.lean ====
section
/-! DEFINITION. The host's operations (spec/40_interpreter_loop.md R90, R97 to R102; spec/70_reset_and_hazards.md R240, R241)
and sequences of them (R102). Log 6. -/

namespace Sys2Proof.Machine

/-- One timer under `tick()` (R97, R29). -/
def tickTimer (t : Byte) : Byte := if t.toNat > 0 then t - 1 else t

/-- `tick()` (R97), the same in every mode. -/
def tick (s : State) : State := { s with dt := tickTimer s.dt, st := tickTimer s.st }

/-- `set_key(index, pressed)` (R98; the index's range is decision D26 of the spec, log 21). -/
def setKey (k : Fin 16) (pressed : Bool) (s : State) : State := { s with key := s.key.set k pressed }

/-- `load_program(bytes)` (R99): all or nothing (decision D19 of the spec, log 20). -/
def loadProgram (bytes : List Byte) (s : State) : Except Fault State :=
  if Config.programStart + bytes.length > Config.memSize then .error .programTooLarge
  else .ok (s.storeBytes Config.programStart bytes)

/-- `pixel_grid()` (R100). -/
def pixelGrid (s : State) : Grid := s.grid

/-- `sound_active()` (R101): `ST > 0`. -/
def soundActive (s : State) : Bool := decide (s.st.toNat > 0)

/-- The result `step()` returns, read from the state after it: Err(e) when the step raised `e` or found the machine Faulted
(R94, R96), else Ok (R91, R95). Log 3. -/
def stepReply (after : State) : Except Fault Unit :=
  match after.mode with
  | .faulted e => .error e
  | _ => .ok ()

/-- One call of the host (R90). -/
inductive HostCall where
  | reset
  | loadProgram (bytes : List Byte)
  | step
  | tick
  | setKey (k : Fin 16) (pressed : Bool)
  | pixelGrid
  | soundActive
  deriving DecidableEq, Repr

/-- What a call returns to the host (R90). -/
inductive Reply where
  /-- No result, or Ok. -/
  | ok
  /-- Err(e), of `step()` or `load_program`. -/
  | err (e : Fault)
  | grid (g : Grid)
  | sound (active : Bool)
  deriving DecidableEq, Repr

/-- The reply of a call that returns Ok or Err(e). -/
def replyOf : Except Fault Unit → Reply
  | .ok _ => .ok
  | .error e => .err e

/-- One host call: the state after it and its reply. Only `step()` can be refused (R211). -/
def hostCall (c : HostCall) (s : State) : Host.Outcome (State × Reply) Fault Refusal :=
  match c with
  | .reset => .next (resetMachine s, .ok)
  | .loadProgram bytes =>
    match loadProgram bytes s with
    | .ok t => .next (t, .ok)
    | .error e => .next (s, .err e)
  | .step =>
    match step s with
    | .next t => .next (t, replyOf (stepReply t))
    | .fault e => .fault e
    | .refused r => .refused r
  | .tick => .next (tick s, .ok)
  | .setKey k pressed => .next (setKey k pressed s, .ok)
  | .pixelGrid => .next (s, .grid (pixelGrid s))
  | .soundActive => .next (s, .sound (soundActive s))

/-- A sequence of host calls (R102): each completes before the next starts, and a refusal ends the run (R211, R240). -/
def runHost : List HostCall → State → Result
  | [], s => .next s
  | c :: cs, s =>
    match hostCall c s with
    | .next (t, _) => runHost cs t
    | .fault e => .fault e
    | .refused r => .refused r

end Sys2Proof.Machine
end

