-- ==== Sys2Proof/Safety.lean ====
section
/-! DEFINITION. The terms the claims use: the invariant of every state a run reaches, what a step or an instruction leaves
unchanged (spec/10_state.md R35), and what a safe run is. -/

namespace Sys2Proof.Machine

/-! ### The invariant -/

/-- The memory list is in canonical form. -/
abbrev MemCanonical (s : State) : Prop := s.mem.wf s.config.fontRom = true

/-- The font table holds FONT_ROM: "never overwritten by running programs" (R21, R52). -/
def FontIntact (s : State) : Prop := ∀ a, a < Config.fontEnd → s.byteAt a = unlisted s.config.fontRom a

/-- `pc` is at most 0x10FE, and every live stack entry, being a post-fetch `pc` of a CALL, at most 0x1000 (R25). -/
def PcBounded (s : State) : Prop :=
  s.pc.toNat ≤ 0x10FE ∧ ∀ k : Fin 16, k.val < s.sp.val → (s.stack.get k).toNat ≤ 0x1000

/-- No step leaves the machine halted on ProgramTooLarge, which is a result of `load_program` only (R210). -/
abbrev ModeLegal (s : State) : Prop := s.mode ≠ .faulted .programTooLarge

/-- The invariant of every state a run reaches from reset. -/
def StateInv (s : State) : Prop := MemCanonical s ∧ FontIntact s ∧ PcBounded s ∧ ModeLegal s

/-! ### What is read and left unchanged -/

/-- The word `op` lies at `pc` and can be fetched (R92). -/
def FetchesWord (s : State) (op : Word) : Prop :=
  s.pc.toNat + 1 < 4096 ∧ s.byteAt s.pc.toNat = hiByte op ∧ s.byteAt (s.pc.toNat + 1) = loByte op

/-- The instruction completes, changing general registers only: afterwards register `k` holds `f k`. -/
def WritesRegisters (i : Instr) (s : State) (f : Reg → Byte) : Prop :=
  ∃ v', exec i s = .next { s with v := v' } ∧ ∀ k : Reg, v'.get k = f k

/-- The instruction completes, changing memory only: afterwards the byte at `a` is `f a`. -/
def WritesMemory (i : Instr) (s : State) (f : Nat → Byte) : Prop :=
  ∃ m', exec i s = .next { s with mem := m' } ∧ ∀ a, State.byteAt { s with mem := m' } a = f a

/-- Every byte of memory reads as before. -/
def SameMemory (s t : State) : Prop := ∀ a, t.byteAt a = s.byteAt a

/-- The general registers an instruction may write (R34, R35): its destinations, and VF where it writes the flag. -/
def writesReg : Instr → Reg → Bool
  | .ldImm x _, k | .addImm x _, k | .ldReg x _, k | .rnd x _, k | .ldVxDt x, k => k == x
  | .orReg x _, k | .andReg x _, k | .xorReg x _, k => k == x
  | .addReg x _, k | .sub x _, k | .shr x _, k | .subn x _, k | .shl x _, k => k == x || k == VF
  | .drw _ _ _, k => k == VF
  | .addI _, k => k == VF
  | .ldVxMem x, k => decide (k.val ≤ x.val)
  | .nop, _ | .cls, _ | .ret, _ | .jp _, _ | .call _, _ | .seImm _ _, _ | .sneImm _ _, _ | .seReg _ _, _ => false
  | .sneReg _ _, _ | .ldI _, _ | .jpV0 _, _ | .skp _, _ | .sknp _, _ | .ldVxK _, _ | .ldDtVx _, _ => false
  | .ldStVx _, _ | .ldF _, _ | .ldB _, _ | .ldMemVx _, _ => false

/-- How many bytes an instruction stores, from I on (R35, R56). -/
def storedBytes : Instr → Nat
  | .ldB _ => 3
  | .ldMemVx x => x.val + 1
  | .nop | .cls | .ret | .jp _ | .call _ | .seImm _ _ | .sneImm _ _ | .seReg _ _ | .ldImm _ _ | .addImm _ _ => 0
  | .ldReg _ _ | .orReg _ _ | .andReg _ _ | .xorReg _ _ | .addReg _ _ | .sub _ _ | .shr _ _ | .subn _ _ => 0
  | .shl _ _ | .sneReg _ _ | .ldI _ | .jpV0 _ | .rnd _ _ | .drw _ _ _ | .skp _ | .sknp _ | .ldVxDt _ => 0
  | .ldVxK _ | .ldDtVx _ | .ldStVx _ | .addI _ | .ldF _ | .ldVxMem _ => 0

/-- The instructions whose execute phase may write `pc` (R35). -/
def writesPc : Instr → Bool
  | .ret | .jp _ | .call _ | .jpV0 _ | .seImm _ _ | .sneImm _ _ | .seReg _ _ | .sneReg _ _ | .skp _ | .sknp _ => true
  | .nop | .cls | .ldImm _ _ | .addImm _ _ | .ldReg _ _ | .orReg _ _ | .andReg _ _ | .xorReg _ _ => false
  | .addReg _ _ | .sub _ _ | .shr _ _ | .subn _ _ | .shl _ _ | .ldI _ | .rnd _ _ | .drw _ _ _ | .ldVxDt _ => false
  | .ldVxK _ | .ldDtVx _ | .ldStVx _ | .addI _ | .ldF _ | .ldB _ | .ldMemVx _ | .ldVxMem _ => false

/-! ### Safe runs -/

/-- A call that returned no error. -/
def Reply.isErr : Reply → Bool
  | .err _ => true
  | .ok | .grid _ | .sound _ => false

/-- A sequence of host calls in which no call is refused and none returns an error (R210, R211): a safe run, with its last
state. -/
def SafeRun : List HostCall → State → State → Prop
  | [], s, t => t = s
  | c :: cs, s, t => ∃ u r, hostCall c s = .next (u, r) ∧ r.isErr = false ∧ SafeRun cs u t

end Sys2Proof.Machine
end

