-- ==== Sys2Proof/Certificates/Slice0/Obligations.lean ====
section
/-! DEFINITION. The statements for the provers, in the order of OBLIGATIONS.json. In a statement about one instruction `s` is
the state after the fetch, so `s.pc` is the post-fetch program counter (spec/40_interpreter_loop.md R93). "D<n>" is a decision
of spec/92_eei_decisions.md, "log <n>" the file notes/assumptions/<n>.md. -/

open Sys2Proof Sys2Proof.Machine

/-! ### Encoding -/

/-- Decode and encode agree (R70, R72, R74), on the word and on the bytes as memory holds them. -/
def Obligations.EveryInstructionDecodesFromItsEncoding : Prop :=
  ∀ i : Instr, decodeWord (encode i) = .ok i ∧ ∀ rest, decode (encodeBytes i ++ rest) = .ok (i, rest)

/-- The other direction: a word that decodes is the encoding of what it decodes to, so no bit is ignored (R74). -/
def Obligations.DecodedWordIsTheEncodingOfItsInstruction : Prop :=
  ∀ (op : Word) (i : Instr), decodeWord op = .ok i → encode i = op

/-- The rejected words are exactly the six groups of R77. -/
def Obligations.RejectedWordsAreExactlyTheInvalidSpace : Prop :=
  ∀ op : Word, decodeWord op = .error (.invalidOpcode op) ↔
    (op.toNat / 4096 = 0x0 ∧ op.toNat % 4096 ≠ 0x000 ∧ op.toNat % 4096 ≠ 0x0E0 ∧ op.toNat % 4096 ≠ 0x0EE) ∨
    (op.toNat / 4096 = 0x5 ∧ op.toNat % 16 ≠ 0) ∨
    (op.toNat / 4096 = 0x8 ∧ op.toNat % 16 ∈ [0x8, 0x9, 0xA, 0xB, 0xC, 0xD, 0xF]) ∨
    (op.toNat / 4096 = 0x9 ∧ op.toNat % 16 ≠ 0) ∨
    (op.toNat / 4096 = 0xE ∧ op.toNat % 256 ∉ [0x9E, 0xA1]) ∨
    (op.toNat / 4096 = 0xF ∧ op.toNat % 256 ∉ [0x07, 0x0A, 0x15, 0x18, 0x1E, 0x29, 0x33, 0x55, 0x65])

/-- Words written out from the patterns of R75, one per family, and one of no row. -/
def Obligations.SampleWordsDecodeAsThePatternsSay : Prop :=
  decodeWord 0x00E0 = .ok .cls ∧ decodeWord 0x00EE = .ok .ret ∧ decodeWord 0x2210 = .ok (.call 0x210) ∧
  decodeWord 0x322A = .ok (.seImm 2 0x2A) ∧ decodeWord 0x8126 = .ok (.shr 1 2) ∧ decodeWord 0x812E = .ok (.shl 1 2) ∧
  decodeWord 0xC30F = .ok (.rnd 3 0x0F) ∧ decodeWord 0xD235 = .ok (.drw 2 3 5) ∧ decodeWord 0xE19E = .ok (.skp 1) ∧
  decodeWord 0xF415 = .ok (.ldDtVx 4) ∧ decodeWord 0xF265 = .ok (.ldVxMem 2) ∧
  decodeWord 0x5001 = .error (.invalidOpcode 0x5001)

/-! ### The interpreter loop -/

/-- A running step whose word decodes is that instruction's execute phase on the state after the fetch, and the fetch adds
exactly 2 to `pc` (R91, R92). -/
def Obligations.StepRunsTheDecodedInstruction : Prop :=
  ∀ (s : State) (op : Word) (i : Instr), s.mode = .running → FetchesWord s op → decodeWord op = .ok i →
    step s = exec i { s with pc := s.pc + 2 } ∧ (s.pc + 2).toNat = s.pc.toNat + 2

/-- A fetch outside memory raises OutOfBounds with the first offending address; `pc` is not advanced and nothing else changes
(R92; the untouched `pc` is decision D8, log 11, the payload decision D17, log 29). -/
def Obligations.FetchOutsideMemoryRaisesOutOfBounds : Prop :=
  ∀ s : State, s.mode = .running → 4096 ≤ s.pc.toNat + 1 →
    step s = .next { s with mode := .faulted (.outOfBounds (if 4096 ≤ s.pc.toNat then s.pc.toNat else s.pc.toNat + 1)) }

/-- A word of no row: `pc` has advanced, nothing else changes, the interpreter halts and the host gets Err(InvalidOpcode(op))
(R76). -/
def Obligations.UnknownWordRaisesInvalidOpcode : Prop :=
  ∀ (s : State) (op : Word), s.mode = .running → FetchesWord s op → (∀ i, decodeWord op ≠ .ok i) →
    ∃ t, step s = .next t ∧ t = { s with pc := s.pc + 2, mode := .faulted (.invalidOpcode op) } ∧
      hostCall .step s = .next (t, .err (.invalidOpcode op))

/-- A Faulted machine stays as it is and `step()` returns its error again; only `reset()` leaves Faulted: any other host
calls, in any number and order, complete and leave the program's registers, stack, grid and mode as they were (R96, R215:
decision D9, log 4). -/
def Obligations.OnlyResetLeavesFaulted : Prop :=
  ∀ (s : State) (e : Fault), s.mode = .faulted e →
    step s = .next s ∧ hostCall .step s = .next (s, .err e) ∧
    ∀ cs : List HostCall, HostCall.reset ∉ cs →
      ∃ t, runHost cs s = .next t ∧ t.mode = .faulted e ∧ t.v = s.v ∧ t.i = s.i ∧ t.pc = s.pc ∧ t.stack = s.stack ∧
        t.sp = s.sp ∧ t.grid = s.grid

/-- The key wait: without a pressed key nothing changes; with one, the lowest index goes to V[x] and the mode is Running
again, and nothing else changes (R95: level and lowest index are decision D13, log 12). -/
def Obligations.KeyWaitEndsWithTheLowestPressedKey : Prop :=
  ∀ (s : State) (x : Reg), s.mode = .awaitingKey x →
    ((∀ k : Fin 16, s.key.get k = false) → step s = .next s) ∧
    (∀ k : Fin 16, s.key.get k = true → (∀ j : Fin 16, j < k → s.key.get j = false) →
      ∃ v', step s = .next { s with v := v', mode := .running } ∧
        ∀ r : Reg, v'.get r = if r = x then BitVec.ofNat 8 k.val else s.readV r)

/-- With no key pressed the wait outlasts any number of steps and ticks (R246, R95). -/
def Obligations.KeyWaitLastsWhileNoKeyIsPressed : Prop :=
  ∀ (cs : List HostCall) (s : State) (x : Reg), s.mode = .awaitingKey x → (∀ k : Fin 16, s.key.get k = false) →
    (∀ c ∈ cs, c = .step ∨ c = .tick) →
    ∃ t, runHost cs s = .next t ∧ t = { s with dt := t.dt, st := t.st }

/-- Errors are precise: whatever a running step halts on, only `mode` and `pc` have changed, and `pc` only by the fetch
(R93, R214: decisions D7 and D8, log 11). -/
def Obligations.ErrorsLeaveAllButPcAndModeUnchanged : Prop :=
  ∀ (s t : State) (e : Fault), s.mode = .running → step s = .next t → t.mode = .faulted e →
    t = { s with pc := s.pc + 2, mode := .faulted e } ∨
    (4096 ≤ s.pc.toNat + 1 ∧ t = { s with mode := .faulted e })

/-- Which errors a running step can halt on, and from which instruction (R210; that OutOfBounds carries an
address is decision D17, log 29). -/
def Obligations.EachErrorComesFromItsOwnInstructions : Prop :=
  ∀ (s t : State) (e : Fault), s.mode = .running → step s = .next t → t.mode = .faulted e →
    (∃ addr, e = .outOfBounds addr ∧ 4096 ≤ addr ∧
      (4096 ≤ s.pc.toNat + 1 ∨
        ∃ i x y n, FetchesWord s (encode i) ∧ (i = .drw x y n ∨ i = .ldB x ∨ i = .ldMemVx x ∨ i = .ldVxMem x))) ∨
    (e = .stackOverflow ∧ s.sp = 16 ∧ ∃ nnn, FetchesWord s (encode (.call nnn))) ∨
    (e = .stackUnderflow ∧ s.sp = 0 ∧ FetchesWord s (encode .ret)) ∨
    (∃ op, e = .invalidOpcode op ∧ FetchesWord s op ∧ ∀ i, decodeWord op ≠ .ok i)

/-- A step is refused in exactly the three cases of R211 (decisions D10, D14, D15, D29; log 5), with their payloads. -/
def Obligations.RefusedStepsAreExactlyTheThreeCases : Prop :=
  ∀ (s : State) (r : Refusal), step s = .refused r ↔
    s.mode = .running ∧ ∃ x : Reg,
      ((FetchesWord s (encode (.ldB x)) ∨ FetchesWord s (encode (.ldMemVx x))) ∧ s.i.toNat < 0x050 ∧
        r = .fontRegionWrite s.i.toNat) ∨
      ((FetchesWord s (encode (.skp x)) ∨ FetchesWord s (encode (.sknp x))) ∧ 15 < (s.readV x).toNat ∧
        r = .keyIndexRange (s.readV x)) ∨
      (FetchesWord s (encode (.ldF x)) ∧ 15 < (s.readV x).toNat ∧ r = .fontDigitRange (s.readV x))

/-- No step ends in a fault outcome: an error is taken, as a next state in mode Faulted (R94; log 3). -/
def Obligations.NoStepEndsInAFaultOutcome : Prop :=
  ∀ (s : State) (e : Fault), step s ≠ .fault e

/-! ### The host's operations -/

/-- `tick()` (R97): each timer goes down by one while above 0, nothing else changes, in every mode (the last is the inference
the spec marks as its own). -/
def Obligations.TickDecrementsEachTimerAboveZero : Prop :=
  ∀ s : State, ∃ t, hostCall .tick s = .next (t, .ok) ∧ t = { s with dt := t.dt, st := t.st } ∧
    (if 0 < s.dt.toNat then t.dt.toNat + 1 = s.dt.toNat else t.dt = 0) ∧
    (if 0 < s.st.toNat then t.st.toNat + 1 = s.st.toNat else t.st = 0)

/-- Any number of ticks counts both timers down to 0 and no further (R29, R97). -/
def Obligations.TicksCountTimersDownToZero : Prop :=
  ∀ (n : Nat) (s : State), ∃ t, runHost (List.replicate n .tick) s = .next t ∧ t = { s with dt := t.dt, st := t.st } ∧
    t.dt.toNat = s.dt.toNat - n ∧ t.st.toNat = s.st.toNat - n

/-- `set_key` (R98; the index's range is decision D26, log 21): one key, nothing else, in any mode. -/
def Obligations.SetKeyWritesOneKey : Prop :=
  ∀ (s : State) (k : Fin 16) (pressed : Bool), ∃ key', hostCall (.setKey k pressed) s = .next ({ s with key := key' }, .ok) ∧
    ∀ j : Fin 16, key'.get j = if j = k then pressed else s.key.get j

/-- `load_program` (R99: all-or-nothing is decision D19, log 20): the image lies verbatim from 0x200, or nothing changes and
the call returns ProgramTooLarge. -/
def Obligations.LoadProgramWritesTheImageOrNothing : Prop :=
  ∀ (bytes : List Byte) (s : State),
    (0x200 + bytes.length ≤ 4096 →
      ∃ m', hostCall (.loadProgram bytes) s = .next ({ s with mem := m' }, .ok) ∧
        (∀ k (h : k < bytes.length), State.byteAt { s with mem := m' } (0x200 + k) = bytes[k]) ∧
        ∀ a, a < 0x200 ∨ 0x200 + bytes.length ≤ a → State.byteAt { s with mem := m' } a = s.byteAt a) ∧
    (4096 < 0x200 + bytes.length → hostCall (.loadProgram bytes) s = .next (s, .err .programTooLarge))

/-- `pixel_grid()` and `sound_active()` (R100, R101) change nothing; the sound is active exactly while ST is above 0. -/
def Obligations.HostViewsChangeNothing : Prop :=
  ∀ s : State, (∃ g : Grid, hostCall .pixelGrid s = .next (s, .grid g) ∧ ∀ c r, g.pixel c r = s.grid.pixel c r) ∧
    ∃ b, hostCall .soundActive s = .next (s, .sound b) ∧ (b = true ↔ 0 < s.st.toNat)

/-- `reset()` from any state, in any mode, for any parameters (R240, R38; keys and mode are decision D18, log 18). The draw
counter is not stated: its value is free (log 1). -/
def Obligations.ResetGivesTheResetStateFromAnyState : Prop :=
  ∀ s : State, ∃ t, hostCall .reset s = .next (t, .ok) ∧
    (∀ k : Reg, t.readV k = 0) ∧ t.i = 0 ∧ t.pc = 0x200 ∧ (∀ k : Fin 16, t.stack.get k = 0) ∧ t.sp = 0 ∧
    t.dt = 0 ∧ t.st = 0 ∧ (∀ k : Fin 16, t.key.get k = false) ∧ (∀ c r, t.grid.pixel c r = false) ∧ t.mode = .running ∧
    t.config = s.config ∧
    (∀ (d : Fin 16) (k : Fin 5), t.byteAt (5 * d.val + k.val) = (s.config.fontRom.get d).get k) ∧
    (∀ a, 0x050 ≤ a → a < 4096 → t.byteAt a = 0)

/-! ### Control flow and skips -/

/-- NOP (R110): the word 0x0000 only; no state change beyond the fetch. -/
def Obligations.NopChangesNothing : Prop :=
  (∀ op : Word, decodeWord op = .ok .nop ↔ op = 0x0000) ∧ ∀ s : State, exec .nop s = .next s

/-- JP (R112): `pc` is the target, nothing else changes; a target of 0xFFF makes the next fetch raise OutOfBounds(0x1000); a
jump to its own address changes nothing at all. That the failed fetch leaves `pc` is decision D8, log 11, and its payload is
decision D17, log 29. -/
def Obligations.JumpSetsThePc : Prop :=
  ∀ nnn : Addr, decodeWord (BitVec.ofNat 16 (0x1000 + nnn.toNat)) = .ok (.jp nnn) ∧
    (∀ s : State, ∃ t, exec (.jp nnn) s = .next t ∧ t.pc.toNat = nnn.toNat ∧ t = { s with pc := t.pc } ∧
      (nnn = 0xFFF → s.mode = .running → step t = .next { t with mode := .faulted (.outOfBounds 0x1000) })) ∧
    ∀ s : State, s.mode = .running → FetchesWord s (encode (.jp nnn)) → s.pc.toNat = nnn.toNat → step s = .next s

/-- JP V0 (R118; the unreduced sum is decision D24, log 17): `pc` is the exact sum, nothing else changes; a sum above 0xFFE
makes the next fetch raise OutOfBounds (that the failed fetch leaves `pc` is decision D8, log 11, and the payload is decision
D17, log 29). -/
def Obligations.JumpWithOffsetAddsV0 : Prop :=
  ∀ (nnn : Addr) (s : State), ∃ t, exec (.jpV0 nnn) s = .next t ∧ t.pc.toNat = nnn.toNat + (s.readV 0).toNat ∧
    t = { s with pc := t.pc } ∧
    (0xFFE < t.pc.toNat → s.mode = .running →
      step t = .next { t with mode := .faulted (.outOfBounds (max t.pc.toNat 4096)) })

/-- CALL with room on the stack (R113, R27): the post-fetch `pc` is pushed, `pc` is the target; no other entry changes. -/
def Obligations.CallPushesTheReturnAddress : Prop :=
  ∀ (nnn : Addr) (s : State), s.sp.val < 16 →
    ∃ t, exec (.call nnn) s = .next t ∧ t.pc.toNat = nnn.toNat ∧ t.sp.val = s.sp.val + 1 ∧
      (∀ k : Fin 16, t.stack.get k = if k.val = s.sp.val then s.pc else s.stack.get k) ∧
      t = { s with pc := t.pc, sp := t.sp, stack := t.stack }

/-- RET with a live entry (R111, R28): `pc` is the popped entry; the entry itself stays, stale (R26). -/
def Obligations.ReturnPopsThePc : Prop :=
  ∀ s : State, s.sp.val ≠ 0 →
    ∃ t, exec .ret s = .next t ∧ t.sp.val + 1 = s.sp.val ∧ (∀ k : Fin 16, k.val = t.sp.val → t.pc = s.stack.get k) ∧
      t = { s with pc := t.pc, sp := t.sp }

/-- CALL on a full stack and RET on an empty one raise, and change nothing but the mode (R113, R111; that `pc` keeps its
post-fetch value is decision D8 and conflict C3, log 11). -/
def Obligations.StackErrorsChangeOnlyTheMode : Prop :=
  ∀ s : State,
    (s.sp = 16 → ∀ nnn, exec (.call nnn) s = .next { s with mode := .faulted .stackOverflow }) ∧
    (s.sp = 0 → exec .ret s = .next { s with mode := .faulted .stackUnderflow })

/-- A RET with the stack as the CALL left it returns to the instruction after the CALL (95_test_vectors.md L1-2). -/
def Obligations.ReturnUndoesCall : Prop :=
  ∀ (nnn : Addr) (s t u : State), s.sp.val < 16 → exec (.call nnn) s = .next t → u.stack = t.stack → u.sp = t.sp →
    ∃ w, exec .ret u = .next w ∧ w.pc = s.pc ∧ w.sp = s.sp ∧ w.mode = u.mode

/-- The skips on registers and immediates (R114 to R117): with the condition `pc` goes 2 further, without it nothing
changes. A word 0x5xyn or 0x9xyn with n other than 0 is none of them. -/
def Obligations.SkipsAddTwoExactlyOnTheirCondition : Prop :=
  ∀ (x y : Reg) (nn : Byte),
    (decodeWord (BitVec.ofNat 16 (0x3000 + 256 * x.val + nn.toNat)) = .ok (.seImm x nn) ∧
      decodeWord (BitVec.ofNat 16 (0x4000 + 256 * x.val + nn.toNat)) = .ok (.sneImm x nn) ∧
      decodeWord (BitVec.ofNat 16 (0x5000 + 256 * x.val + 16 * y.val)) = .ok (.seReg x y) ∧
      decodeWord (BitVec.ofNat 16 (0x9000 + 256 * x.val + 16 * y.val)) = .ok (.sneReg x y)) ∧
    (∀ (n : Reg) (i : Instr), n ≠ 0 →
      decodeWord (BitVec.ofNat 16 (0x5000 + 256 * x.val + 16 * y.val + n.val)) ≠ .ok i ∧
      decodeWord (BitVec.ofNat 16 (0x9000 + 256 * x.val + 16 * y.val + n.val)) ≠ .ok i) ∧
    ∀ s : State,
      exec (.seImm x nn) s = .next (if s.readV x = nn then { s with pc := s.pc + 2 } else s) ∧
      exec (.sneImm x nn) s = .next (if s.readV x ≠ nn then { s with pc := s.pc + 2 } else s) ∧
      exec (.seReg x y) s = .next (if s.readV x = s.readV y then { s with pc := s.pc + 2 } else s) ∧
      exec (.sneReg x y) s = .next (if s.readV x ≠ s.readV y then { s with pc := s.pc + 2 } else s)

/-! ### Display -/

/-- CLS (R132): every cell false, nothing else changes; on a clear grid nothing at all. -/
def Obligations.ClearScreenClearsEveryCell : Prop :=
  (∀ op : Word, decodeWord op = .ok .cls ↔ op = 0x00E0) ∧
  ∀ s : State, (∃ g', exec .cls s = .next { s with grid := g' } ∧ ∀ c r, Grid.pixel g' c r = false) ∧
    ((∀ c r, s.grid.pixel c r = false) → exec .cls s = .next s)

/-- DRW inside memory (R133, R130, R131; bit order and row wrap are decisions D3 and D27, log 13): a cell changes iff a 1 bit
of the sprite lands on it; VF is 1 iff some cell went from set to unset, else 0; nothing else changes. -/
def Obligations.DrawTogglesExactlyTheSpritePixels : Prop :=
  ∀ (x y n : Reg) (s : State), n.val = 0 ∨ s.i.toNat + n.val ≤ 4096 →
    ∃ t, exec (.drw x y n) s = .next t ∧
      (∀ (c : Fin 64) (r : Fin 32), t.grid.pixel c r ≠ s.grid.pixel c r ↔
        ∃ row col, row < n.val ∧ col < 8 ∧ (s.byteAt (s.i.toNat + row)).getLsbD (7 - col) = true ∧
          c.val = ((s.readV x).toNat + col) % 64 ∧ r.val = ((s.readV y).toNat + row) % 32) ∧
      (t.readV VF = 1 ∨ t.readV VF = 0) ∧
      (t.readV VF = 1 ↔ ∃ c r, s.grid.pixel c r = true ∧ t.grid.pixel c r = false) ∧
      (∀ k, k ≠ VF → t.readV k = s.readV k) ∧ t = { s with grid := t.grid, v := t.v }

/-- Drawing the same sprite twice at the same place restores the grid, and the second draw reports a collision exactly when
the first turned a cell on (95_test_vectors.md L1-4, conflict C9). -/
def Obligations.DrawingTwiceRestoresTheGrid : Prop :=
  ∀ (x y n : Reg) (s t u : State), n.val = 0 ∨ s.i.toNat + n.val ≤ 4096 → exec (.drw x y n) s = .next t →
    u.grid = t.grid → u.i = s.i → u.readV x = s.readV x → u.readV y = s.readV y → SameMemory s u →
    ∃ w, exec (.drw x y n) u = .next w ∧ w.grid = s.grid ∧
      (w.readV VF = 1 ↔ ∃ c r, s.grid.pixel c r = false ∧ t.grid.pixel c r = true)

/-! ### Arithmetic and logic -/

/-- LD Vx, nn and ADD Vx, nn (R141, R142): Vx only; the sum wraps, and VF is no flag here, it changes only as the
destination. -/
def Obligations.ImmediateLoadAndAddWriteVxOnly : Prop :=
  ∀ (x : Reg) (nn : Byte),
    (decodeWord (BitVec.ofNat 16 (0x6000 + 256 * x.val + nn.toNat)) = .ok (.ldImm x nn) ∧
      decodeWord (BitVec.ofNat 16 (0x7000 + 256 * x.val + nn.toNat)) = .ok (.addImm x nn)) ∧
    ∀ s,
      WritesRegisters (.ldImm x nn) s (fun k => if k = x then nn else s.readV k) ∧
      WritesRegisters (.addImm x nn) s (fun k => if k = x then s.readV x + nn else s.readV k)

/-- The register copy and the bitwise operations (R143 to R146): Vx only, VF not cleared. -/
def Obligations.CopyAndLogicWriteVxOnly : Prop :=
  ∀ x y : Reg,
    (decodeWord (BitVec.ofNat 16 (0x8000 + 256 * x.val + 16 * y.val)) = .ok (.ldReg x y) ∧
      decodeWord (BitVec.ofNat 16 (0x8001 + 256 * x.val + 16 * y.val)) = .ok (.orReg x y) ∧
      decodeWord (BitVec.ofNat 16 (0x8002 + 256 * x.val + 16 * y.val)) = .ok (.andReg x y) ∧
      decodeWord (BitVec.ofNat 16 (0x8003 + 256 * x.val + 16 * y.val)) = .ok (.xorReg x y)) ∧
    ∀ s,
      WritesRegisters (.ldReg x y) s (fun k => if k = x then s.readV y else s.readV k) ∧
      WritesRegisters (.orReg x y) s (fun k => if k = x then s.readV x ||| s.readV y else s.readV k) ∧
      WritesRegisters (.andReg x y) s (fun k => if k = x then s.readV x &&& s.readV y else s.readV k) ∧
      WritesRegisters (.xorReg x y) s (fun k => if k = x then s.readV x ^^^ s.readV y else s.readV k)

/-- ADD Vx, Vy (R147): the sum modulo 256, and the carry in VF, also when x = 15. -/
def Obligations.AddRegistersSetsCarry : Prop :=
  ∀ x y : Reg, decodeWord (BitVec.ofNat 16 (0x8004 + 256 * x.val + 16 * y.val)) = .ok (.addReg x y) ∧
    ∀ s, WritesRegisters (.addReg x y) s fun k =>
      if k = VF then (if 255 < (s.readV x).toNat + (s.readV y).toNat then 1 else 0)
      else if k = x then s.readV x + s.readV y else s.readV k

/-- SUB and SUBN (R148, R150; that VF is written last is decision D6, log 15): the difference modulo 256 and the no-borrow
flag in VF, also when x = 15. -/
def Obligations.SubtractionsSetNoBorrow : Prop :=
  ∀ (x y : Reg) (s : State),
    WritesRegisters (.sub x y) s (fun k =>
      if k = VF then (if (s.readV y).toNat ≤ (s.readV x).toNat then 1 else 0)
      else if k = x then s.readV x - s.readV y else s.readV k) ∧
    WritesRegisters (.subn x y) s (fun k =>
      if k = VF then (if (s.readV x).toNat ≤ (s.readV y).toNat then 1 else 0)
      else if k = x then s.readV y - s.readV x else s.readV k)

/-- SHR and SHL (R149, R151; the source V[y] is decision D4, log 14, and VF last is D6, log 15): half and double of V[y], and
the bit shifted out in VF, also when x = 15. -/
def Obligations.ShiftsTakeVyAndSetTheBitShiftedOut : Prop :=
  ∀ (x y : Reg) (s : State),
    WritesRegisters (.shr x y) s (fun k =>
      if k = VF then (if (s.readV y).toNat % 2 = 1 then 1 else 0)
      else if k = x then BitVec.ofNat 8 ((s.readV y).toNat / 2) else s.readV k) ∧
    WritesRegisters (.shl x y) s (fun k =>
      if k = VF then (if 128 ≤ (s.readV y).toNat then 1 else 0)
      else if k = x then BitVec.ofNat 8 ((s.readV y).toNat * 2) else s.readV k)

/-- RND (R152: the unconstrained fresh draw is decision D12; its form as a free value is the model's, log 1): Vx is the draw
under the mask, so it has no bit that nn lacks; the next draw is another; nothing else changes. -/
def Obligations.RandomIsAFreshDrawUnderTheMask : Prop :=
  ∀ (x : Reg) (nn : Byte) (s : State), ∃ t, exec (.rnd x nn) s = .next t ∧
    (∀ k, t.readV k = if k = x then nn &&& Config.draw8 s.draws else s.readV k) ∧ t.readV x &&& ~~~nn = 0 ∧
    t.draws = s.draws + 1 ∧ t = { s with v := t.v, draws := t.draws }

/-! ### Index register and memory transfers -/

/-- LD I, nnn (R170). -/
def Obligations.LoadIndexWritesI : Prop :=
  ∀ nnn : Addr, decodeWord (BitVec.ofNat 16 (0xA000 + nnn.toNat)) = .ok (.ldI nnn) ∧
    ∀ s, ∃ t, exec (.ldI nnn) s = .next t ∧ t.i.toNat = nnn.toNat ∧ t = { s with i := t.i }

/-- ADD I, Vx (R171; the parameter and its threshold are decision D5, logs 2 and 27): I wraps modulo 65536; VF changes exactly
when FX1E_SETS_VF is true. -/
def Obligations.AddIndexWrapsAndSetsVFOnlyByParameter : Prop :=
  ∀ (x : Reg) (s : State), ∃ t, exec (.addI x) s = .next t ∧ t.i.toNat = (s.i.toNat + (s.readV x).toNat) % 65536 ∧
    (∀ k, t.readV k = if s.config.fx1eSetsVF = true ∧ k = VF
      then (if 0x0FFF < s.i.toNat + (s.readV x).toNat then 1 else 0) else s.readV k) ∧
    t = { s with i := t.i, v := t.v }

/-- LD F, Vx for a digit (R172; the base is decision D1, log 10): I is 5 times the digit, nothing else changes, and while the
font table is intact the glyph's five bytes lie there. -/
def Obligations.FontPointerReachesTheGlyph : Prop :=
  ∀ (x : Reg) (s : State) (h : (s.readV x).toNat < 16), ∃ t, exec (.ldF x) s = .next t ∧
    t.i.toNat = 5 * (s.readV x).toNat ∧ t = { s with i := t.i } ∧
    (FontIntact s → ∀ k : Fin 5, t.byteAt (t.i.toNat + k.val) = (s.config.fontRom.get ⟨(s.readV x).toNat, h⟩).get k)

/-- LD B, Vx inside writable memory (R173): three decimal digits at I, I+1, I+2, every other byte as before, I unchanged. -/
def Obligations.StoreDecimalWritesThreeDigits : Prop :=
  ∀ (x : Reg) (s : State), 0x050 ≤ s.i.toNat → s.i.toNat + 3 ≤ 4096 →
    WritesMemory (.ldB x) s fun a =>
      if a = s.i.toNat then BitVec.ofNat 8 ((s.readV x).toNat / 100)
      else if a = s.i.toNat + 1 then BitVec.ofNat 8 ((s.readV x).toNat / 10 % 10)
      else if a = s.i.toNat + 2 then BitVec.ofNat 8 ((s.readV x).toNat % 10)
      else s.byteAt a

/-- LD [I], Vx inside writable memory (R174; I unchanged is decision D16, log 16): V0 to Vx at I on, every other byte as
before. -/
def Obligations.StoreRegistersWritesV0ToVx : Prop :=
  ∀ (x : Reg) (s : State), 0x050 ≤ s.i.toNat → s.i.toNat + x.val + 1 ≤ 4096 →
    WritesMemory (.ldMemVx x) s fun a =>
      if s.i.toNat ≤ a ∧ a ≤ s.i.toNat + x.val then s.readV (Fin.ofNat 16 (a - s.i.toNat)) else s.byteAt a

/-- LD Vx, [I] inside memory (R175; I unchanged is decision D16, log 16). -/
def Obligations.LoadRegistersReadsV0ToVx : Prop :=
  ∀ (x : Reg) (s : State), s.i.toNat + x.val + 1 ≤ 4096 →
    WritesRegisters (.ldVxMem x) s fun k => if k.val ≤ x.val then s.byteAt (s.i.toNat + k.val) else s.readV k

/-- DRW and the transfers that would pass the end of memory raise OutOfBounds with the first offending address and do nothing
else: no byte, register or pixel changes (R133, R173 to R175, R57, R93: decisions D7, D8 and D24,
logs 11 and 17; the payload is decision D17, log 29). -/
def Obligations.AccessesPastMemoryRaiseOutOfBounds : Prop :=
  ∀ (x y n : Reg) (s t : State),
    t = { s with mode := .faulted (.outOfBounds (if 4096 ≤ s.i.toNat then s.i.toNat else 4096)) } →
    (n.val ≠ 0 → 4096 < s.i.toNat + n.val → exec (.drw x y n) s = .next t) ∧
    (0x050 ≤ s.i.toNat → 4096 < s.i.toNat + 3 → exec (.ldB x) s = .next t) ∧
    (0x050 ≤ s.i.toNat → 4096 < s.i.toNat + x.val + 1 → exec (.ldMemVx x) s = .next t) ∧
    (4096 < s.i.toNat + x.val + 1 → exec (.ldVxMem x) s = .next t)

/-- What Fx55 stored, Fx65 loads back, with I and memory as the store left them. It reads from where the store wrote because
Fx55 leaves I unchanged, decision D16, log 16. -/
def Obligations.LoadAfterStoreRestoresRegisters : Prop :=
  ∀ (x : Reg) (s t u : State), 0x050 ≤ s.i.toNat → s.i.toNat + x.val + 1 ≤ 4096 → exec (.ldMemVx x) s = .next t →
    u.i = t.i → SameMemory t u →
    ∃ w, exec (.ldVxMem x) u = .next w ∧ ∀ k : Reg, w.readV k = if k.val ≤ x.val then s.readV k else u.readV k

/-- The next fetch sees the bytes Fx55 stored (R63: decision D30, log 23). -/
def Obligations.FetchSeesStoredBytes : Prop :=
  ∀ (x : Reg) (s t u : State) (k : Nat) (hk : k < x.val), 0x050 ≤ s.i.toNat → s.i.toNat + x.val + 1 ≤ 4096 →
    exec (.ldMemVx x) s = .next t → SameMemory t u → u.pc.toNat = s.i.toNat + k →
    FetchesWord u (s.readV ⟨k, by omega⟩ ++ s.readV ⟨k + 1, by omega⟩)

/-! ### Keys and timers -/

/-- SKP and SKNP with an index of 0 to 15 (R190, R191). -/
def Obligations.KeySkipsReadTheKeyVector : Prop :=
  ∀ (x : Reg) (s : State) (h : (s.readV x).toNat < 16),
    exec (.skp x) s = .next (if s.key.get ⟨(s.readV x).toNat, h⟩ = true then { s with pc := s.pc + 2 } else s) ∧
    exec (.sknp x) s = .next (if s.key.get ⟨(s.readV x).toNat, h⟩ = false then { s with pc := s.pc + 2 } else s)

/-- The timer moves (R192, R194, R195); with ST written, the sound is active exactly for a nonzero value. -/
def Obligations.TimerMovesCopyTheValue : Prop :=
  ∀ x : Reg,
    (decodeWord (BitVec.ofNat 16 (0xF007 + 256 * x.val)) = .ok (.ldVxDt x) ∧
      decodeWord (BitVec.ofNat 16 (0xF015 + 256 * x.val)) = .ok (.ldDtVx x) ∧
      decodeWord (BitVec.ofNat 16 (0xF018 + 256 * x.val)) = .ok (.ldStVx x)) ∧
    ∀ s,
      WritesRegisters (.ldVxDt x) s (fun k => if k = x then s.dt else s.readV k) ∧
      exec (.ldDtVx x) s = .next { s with dt := s.readV x } ∧
      (∃ t, exec (.ldStVx x) s = .next t ∧ t = { s with st := s.readV x } ∧ (soundActive t = true ↔ s.readV x ≠ 0))

/-- LD Vx, K (R193: that the wait ends only in a later step is decision D13, log 12): the step that executes it sets the mode
and advances past it, and changes nothing else, even with keys pressed. -/
def Obligations.WaitForKeyOnlySetsTheMode : Prop :=
  ∀ (x : Reg) (s : State),
    exec (.ldVxK x) s = .next { s with mode := .awaitingKey x } ∧
    (s.mode = .running → FetchesWord s (encode (.ldVxK x)) →
      step s = .next { s with pc := s.pc + 2, mode := .awaitingKey x })

/-! ### Frames, for every instruction (R35) -/

/-- Registers: only those the instruction writes change. -/
def Obligations.OnlyDestinationRegistersChange : Prop :=
  ∀ (i : Instr) (s t : State) (k : Reg), exec i s = .next t → writesReg i k = false → t.readV k = s.readV k

/-- Memory: only the bytes from I on that Fx33 and Fx55 store change. -/
def Obligations.OnlyStoredBytesChange : Prop :=
  ∀ (i : Instr) (s t : State), exec i s = .next t →
    ∀ a, a < s.i.toNat ∨ s.i.toNat + storedBytes i ≤ a → t.byteAt a = s.byteAt a

/-- The program counter: only jumps, calls, returns and skips write it after the fetch. -/
def Obligations.OnlyControlTransfersWritePc : Prop :=
  ∀ (i : Instr) (s t : State), exec i s = .next t → writesPc i = false → t.pc = s.pc

/-- The stack: only CALL and RET touch it (R26). -/
def Obligations.OnlyCallAndReturnTouchTheStack : Prop :=
  ∀ (i : Instr) (s t : State), exec i s = .next t → i ≠ .ret → (∀ nnn, i ≠ .call nnn) → t.stack = s.stack ∧ t.sp = s.sp

/-- Grid, index register and timers: each changes only by its own instructions (R31, R24, R33). -/
def Obligations.GridIndexAndTimersChangeOnlyByTheirInstructions : Prop :=
  ∀ (i : Instr) (s t : State), exec i s = .next t →
    (t.grid = s.grid ∨ i = .cls ∨ ∃ x y n, i = .drw x y n) ∧
    (t.i = s.i ∨ (∃ nnn, i = .ldI nnn) ∨ ∃ x, i = .addI x ∨ i = .ldF x) ∧
    (t.dt = s.dt ∨ ∃ x, i = .ldDtVx x) ∧ (t.st = s.st ∨ ∃ x, i = .ldStVx x)

/-- The key vector is read-only to the interpreter, and no step changes the parameters (R30; `config` is the model's own field,
log 2); the mode changes only by the key wait and by an error (R32, R210). -/
def Obligations.KeysStayAndModeChangesOnlyByWaitOrError : Prop :=
  ∀ s t : State, step s = .next t → t.key = s.key ∧ t.config = s.config ∧
    (t.mode = s.mode ∨ (∃ x, s.mode = .awaitingKey x ∧ t.mode = .running) ∨
      (s.mode = .running ∧ ((∃ x, FetchesWord s (encode (.ldVxK x)) ∧ t.mode = .awaitingKey x) ∨ ∃ e, t.mode = .faulted e)))

/-! ### Invariants -/

/-- The state after reset meets the invariant, whatever the parameters. -/
def Obligations.ResetStateMeetsTheInvariant : Prop :=
  ∀ c : Config, StateInv (State.resetWith c)

/-- Every step keeps the invariant: canonical memory, the font table intact (R21, R52), `pc` at most 0x10FE and live stack
entries at most 0x1000 (R25), no halt on ProgramTooLarge (R210). -/
def Obligations.EveryStepKeepsTheInvariant : Prop :=
  ∀ s t : State, StateInv s → step s = .next t → StateInv t

/-- So does every host call, and so every state that host calls reach from reset meets it (R102). -/
def Obligations.EveryHostRunFromResetMeetsTheInvariant : Prop :=
  (∀ (c : HostCall) (s t : State) (r : Reply), StateInv s → hostCall c s = .next (t, r) → StateInv t) ∧
  ∀ (c : Config) (cs : List HostCall) (t : State), runHost cs (State.resetWith c) = .next t → StateInv t

/-- A safe run is a run, and it never halts. -/
def Obligations.SafeRunsCompleteWithoutHalting : Prop :=
  ∀ (cs : List HostCall) (s t : State), (∀ e, s.mode ≠ .faulted e) → SafeRun cs s t →
    runHost cs s = .next t ∧ ∀ e, t.mode ≠ .faulted e
end

