-- ==== Sys2Proof/Laws/Encoding.lean ====
section
/-! SUPPORT. The fields of a packed word (spec/30_encoding.md R71, R72): each format's fields come back as they were put in. -/

namespace Sys2Proof

@[simp] theorem toFin_nib (x : Reg) : (nib x).toFin = x := rfl

@[simp] theorem nib_toFin (b : BitVec 4) : nib b.toFin = b := rfl

@[simp] theorem toNat_nib (x : Reg) : (nib x).toNat = x.val := rfl

theorem toNat_packNNN (o : BitVec 4) (a : Addr) : (packNNN o a).toNat = o.toNat * 4096 + a.toNat := by
  rw [packNNN, BitVec.toNat_append, ← Nat.shiftLeft_add_eq_or_of_lt a.isLt, Nat.shiftLeft_eq]

theorem toNat_packXNN (o : BitVec 4) (x : Reg) (nn : Byte) :
    (packXNN o x nn).toNat = o.toNat * 4096 + x.val * 256 + nn.toNat := by
  rw [packXNN, BitVec.toNat_append, BitVec.toNat_append, ← Nat.shiftLeft_add_eq_or_of_lt nn.isLt,
    ← Nat.shiftLeft_add_eq_or_of_lt (by have := x.isLt; have := nn.isLt; simp only [Nat.shiftLeft_eq, toNat_nib]; omega),
    Nat.shiftLeft_eq, Nat.shiftLeft_eq, toNat_nib]
  omega

theorem toNat_packXYN (o : BitVec 4) (x y : Reg) (n : BitVec 4) :
    (packXYN o x y n).toNat = o.toNat * 4096 + x.val * 256 + y.val * 16 + n.toNat := by
  have hb : packXYN o x y n = packXNN o x (nib y ++ n) := rfl
  rw [hb, toNat_packXNN, BitVec.toNat_append, ← Nat.shiftLeft_add_eq_or_of_lt n.isLt, Nat.shiftLeft_eq, toNat_nib]
  omega

/-! The fields of any word as numbers. -/

theorem nibble1_eq (op : Word) : nibble1 op = op.toNat / 4096 := by
  have := op.isLt
  simp only [nibble1, BitVec.extractLsb'_toNat, Nat.shiftRight_eq_div_pow]; omega

theorem fieldX_val (op : Word) : (fieldX op).val = op.toNat / 256 % 16 := by
  simp only [fieldX, BitVec.val_toFin, BitVec.extractLsb'_toNat, Nat.shiftRight_eq_div_pow]

theorem fieldY_val (op : Word) : (fieldY op).val = op.toNat / 16 % 16 := by
  simp only [fieldY, BitVec.val_toFin, BitVec.extractLsb'_toNat, Nat.shiftRight_eq_div_pow]

theorem fieldN_val (op : Word) : (fieldN op).val = op.toNat % 16 := by
  simp only [fieldN, BitVec.val_toFin, BitVec.extractLsb'_toNat, Nat.shiftRight_eq_div_pow]; norm_num

theorem fieldNN_toNat (op : Word) : (fieldNN op).toNat = op.toNat % 256 := by
  simp only [fieldNN, BitVec.extractLsb'_toNat, Nat.shiftRight_eq_div_pow]; norm_num

theorem fieldNNN_toNat (op : Word) : (fieldNNN op).toNat = op.toNat % 4096 := by
  simp only [fieldNNN, BitVec.extractLsb'_toNat, Nat.shiftRight_eq_div_pow]; norm_num

/-! The fields of a packed word. -/

@[simp] theorem nibble1_packNNN (o : BitVec 4) (a : Addr) : nibble1 (packNNN o a) = o.toNat := by
  have := a.isLt; rw [nibble1_eq, toNat_packNNN]; omega

@[simp] theorem nibble1_packXNN (o : BitVec 4) (x : Reg) (nn : Byte) : nibble1 (packXNN o x nn) = o.toNat := by
  have := x.isLt; have := nn.isLt; rw [nibble1_eq, toNat_packXNN]; omega

@[simp] theorem nibble1_packXYN (o : BitVec 4) (x y : Reg) (n : BitVec 4) : nibble1 (packXYN o x y n) = o.toNat := by
  have := x.isLt; have := y.isLt; have := n.isLt; rw [nibble1_eq, toNat_packXYN]; omega

@[simp] theorem fieldNNN_packNNN (o : BitVec 4) (a : Addr) : fieldNNN (packNNN o a) = a := by
  have := a.isLt; apply BitVec.eq_of_toNat_eq; rw [fieldNNN_toNat, toNat_packNNN]; omega

@[simp] theorem fieldX_packXNN (o : BitVec 4) (x : Reg) (nn : Byte) : fieldX (packXNN o x nn) = x := by
  have := x.isLt; have := nn.isLt; apply Fin.ext; rw [fieldX_val, toNat_packXNN]; omega

@[simp] theorem fieldNN_packXNN (o : BitVec 4) (x : Reg) (nn : Byte) : fieldNN (packXNN o x nn) = nn := by
  have := nn.isLt; apply BitVec.eq_of_toNat_eq; rw [fieldNN_toNat, toNat_packXNN]; omega

@[simp] theorem fieldX_packXYN (o : BitVec 4) (x y : Reg) (n : BitVec 4) : fieldX (packXYN o x y n) = x := by
  have := x.isLt; have := y.isLt; have := n.isLt; apply Fin.ext; rw [fieldX_val, toNat_packXYN]; omega

@[simp] theorem fieldY_packXYN (o : BitVec 4) (x y : Reg) (n : BitVec 4) : fieldY (packXYN o x y n) = y := by
  have := y.isLt; have := n.isLt; apply Fin.ext; rw [fieldY_val, toNat_packXYN]; omega

@[simp] theorem fieldN_packXYN (o : BitVec 4) (x y : Reg) (n : BitVec 4) : fieldN (packXYN o x y n) = n.toFin := by
  have := n.isLt; apply Fin.ext; rw [fieldN_val, toNat_packXYN]; show _ = n.toNat; omega

/-- The two bytes of a word make it up again. -/
@[simp] theorem wordOfBytes_hi_lo (op : Word) : wordOfBytes (hiByte op) (loByte op) = op := by
  have := op.isLt
  apply BitVec.eq_of_toNat_eq
  rw [wordOfBytes, BitVec.toNat_append, ← Nat.shiftLeft_add_eq_or_of_lt (loByte op).isLt, Nat.shiftLeft_eq]
  simp only [hiByte, loByte, BitVec.extractLsb'_toNat, Nat.shiftRight_eq_div_pow]
  omega

theorem toNat_wordOfBytes (hi lo : Byte) : (wordOfBytes hi lo).toNat = hi.toNat * 256 + lo.toNat := by
  rw [wordOfBytes, BitVec.toNat_append, ← Nat.shiftLeft_add_eq_or_of_lt lo.isLt, Nat.shiftLeft_eq]

/-- The bytes of a word made of two bytes. -/
@[simp] theorem hiByte_wordOfBytes (hi lo : Byte) : hiByte (wordOfBytes hi lo) = hi := by
  have := hi.isLt; have := lo.isLt
  apply BitVec.eq_of_toNat_eq
  rw [hiByte, BitVec.extractLsb'_toNat, toNat_wordOfBytes, Nat.shiftRight_eq_div_pow]; omega

@[simp] theorem loByte_wordOfBytes (hi lo : Byte) : loByte (wordOfBytes hi lo) = lo := by
  have := lo.isLt
  apply BitVec.eq_of_toNat_eq
  rw [loByte, BitVec.extractLsb'_toNat, toNat_wordOfBytes, Nat.shiftRight_eq_div_pow]; omega

end Sys2Proof
end

