-- ==== Sys2Proof/Laws/State.lean ====
section
/-! SUPPORT. One lemma per field per update of State, so that no later proof unfolds a record update; and reading a register
after a write. -/

namespace Sys2Proof.Machine

/-- Reading a vector after writing one of its entries. -/
theorem get_set {α : Type} {n : Nat} (v : Vector α n) (x k : Fin n) (b : α) :
    (v.set x.val b).get k = if k = x then b else v.get k := by
  simp only [Vector.get_eq_getElem, Vector.getElem_set, Fin.ext_iff, eq_comm]

/-- A vector with the same entries is the same vector. -/
theorem vector_ext {α : Type} {n : Nat} {v w : Vector α n} (h : ∀ k : Fin n, v.get k = w.get k) : v = w :=
  Vector.ext fun k hk => h ⟨k, hk⟩

namespace State

@[simp] theorem writeV_v (s : State) (x : Reg) (b : Byte) : (s.writeV x b).v = s.v.set x.val b := rfl
@[simp] theorem writeV_i (s : State) (x : Reg) (b : Byte) : (s.writeV x b).i = s.i := rfl
@[simp] theorem writeV_pc (s : State) (x : Reg) (b : Byte) : (s.writeV x b).pc = s.pc := rfl
@[simp] theorem writeV_stack (s : State) (x : Reg) (b : Byte) : (s.writeV x b).stack = s.stack := rfl
@[simp] theorem writeV_sp (s : State) (x : Reg) (b : Byte) : (s.writeV x b).sp = s.sp := rfl
@[simp] theorem writeV_dt (s : State) (x : Reg) (b : Byte) : (s.writeV x b).dt = s.dt := rfl
@[simp] theorem writeV_st (s : State) (x : Reg) (b : Byte) : (s.writeV x b).st = s.st := rfl
@[simp] theorem writeV_key (s : State) (x : Reg) (b : Byte) : (s.writeV x b).key = s.key := rfl
@[simp] theorem writeV_grid (s : State) (x : Reg) (b : Byte) : (s.writeV x b).grid = s.grid := rfl
@[simp] theorem writeV_mode (s : State) (x : Reg) (b : Byte) : (s.writeV x b).mode = s.mode := rfl
@[simp] theorem writeV_mem (s : State) (x : Reg) (b : Byte) : (s.writeV x b).mem = s.mem := rfl
@[simp] theorem writeV_config (s : State) (x : Reg) (b : Byte) : (s.writeV x b).config = s.config := rfl
@[simp] theorem writeV_draws (s : State) (x : Reg) (b : Byte) : (s.writeV x b).draws = s.draws := rfl

@[simp] theorem jump_v (s : State) (a : Word) : (s.jump a).v = s.v := rfl
@[simp] theorem jump_i (s : State) (a : Word) : (s.jump a).i = s.i := rfl
@[simp] theorem jump_pc (s : State) (a : Word) : (s.jump a).pc = a := rfl
@[simp] theorem jump_stack (s : State) (a : Word) : (s.jump a).stack = s.stack := rfl
@[simp] theorem jump_sp (s : State) (a : Word) : (s.jump a).sp = s.sp := rfl
@[simp] theorem jump_dt (s : State) (a : Word) : (s.jump a).dt = s.dt := rfl
@[simp] theorem jump_st (s : State) (a : Word) : (s.jump a).st = s.st := rfl
@[simp] theorem jump_key (s : State) (a : Word) : (s.jump a).key = s.key := rfl
@[simp] theorem jump_grid (s : State) (a : Word) : (s.jump a).grid = s.grid := rfl
@[simp] theorem jump_mode (s : State) (a : Word) : (s.jump a).mode = s.mode := rfl
@[simp] theorem jump_mem (s : State) (a : Word) : (s.jump a).mem = s.mem := rfl
@[simp] theorem jump_config (s : State) (a : Word) : (s.jump a).config = s.config := rfl
@[simp] theorem jump_draws (s : State) (a : Word) : (s.jump a).draws = s.draws := rfl

@[simp] theorem advance_v (s : State)  : (s.advance).v = s.v := rfl
@[simp] theorem advance_i (s : State)  : (s.advance).i = s.i := rfl
@[simp] theorem advance_pc (s : State)  : (s.advance).pc = s.pc + 2 := rfl
@[simp] theorem advance_stack (s : State)  : (s.advance).stack = s.stack := rfl
@[simp] theorem advance_sp (s : State)  : (s.advance).sp = s.sp := rfl
@[simp] theorem advance_dt (s : State)  : (s.advance).dt = s.dt := rfl
@[simp] theorem advance_st (s : State)  : (s.advance).st = s.st := rfl
@[simp] theorem advance_key (s : State)  : (s.advance).key = s.key := rfl
@[simp] theorem advance_grid (s : State)  : (s.advance).grid = s.grid := rfl
@[simp] theorem advance_mode (s : State)  : (s.advance).mode = s.mode := rfl
@[simp] theorem advance_mem (s : State)  : (s.advance).mem = s.mem := rfl
@[simp] theorem advance_config (s : State)  : (s.advance).config = s.config := rfl
@[simp] theorem advance_draws (s : State)  : (s.advance).draws = s.draws := rfl

@[simp] theorem storeByte_v (s : State) (a : Nat) (w : Byte) : (s.storeByte a w).v = s.v := rfl
@[simp] theorem storeByte_i (s : State) (a : Nat) (w : Byte) : (s.storeByte a w).i = s.i := rfl
@[simp] theorem storeByte_pc (s : State) (a : Nat) (w : Byte) : (s.storeByte a w).pc = s.pc := rfl
@[simp] theorem storeByte_stack (s : State) (a : Nat) (w : Byte) : (s.storeByte a w).stack = s.stack := rfl
@[simp] theorem storeByte_sp (s : State) (a : Nat) (w : Byte) : (s.storeByte a w).sp = s.sp := rfl
@[simp] theorem storeByte_dt (s : State) (a : Nat) (w : Byte) : (s.storeByte a w).dt = s.dt := rfl
@[simp] theorem storeByte_st (s : State) (a : Nat) (w : Byte) : (s.storeByte a w).st = s.st := rfl
@[simp] theorem storeByte_key (s : State) (a : Nat) (w : Byte) : (s.storeByte a w).key = s.key := rfl
@[simp] theorem storeByte_grid (s : State) (a : Nat) (w : Byte) : (s.storeByte a w).grid = s.grid := rfl
@[simp] theorem storeByte_mode (s : State) (a : Nat) (w : Byte) : (s.storeByte a w).mode = s.mode := rfl
@[simp] theorem storeByte_mem (s : State) (a : Nat) (w : Byte) : (s.storeByte a w).mem = s.mem.write s.config.fontRom a w := rfl
@[simp] theorem storeByte_config (s : State) (a : Nat) (w : Byte) : (s.storeByte a w).config = s.config := rfl
@[simp] theorem storeByte_draws (s : State) (a : Nat) (w : Byte) : (s.storeByte a w).draws = s.draws := rfl

@[simp] theorem writeWithFlag_v (s : State) (x : Reg) (b g : Byte) : (s.writeWithFlag x b g).v = (s.v.set x.val b).set VF.val g := rfl
@[simp] theorem writeWithFlag_i (s : State) (x : Reg) (b g : Byte) : (s.writeWithFlag x b g).i = s.i := rfl
@[simp] theorem writeWithFlag_pc (s : State) (x : Reg) (b g : Byte) : (s.writeWithFlag x b g).pc = s.pc := rfl
@[simp] theorem writeWithFlag_stack (s : State) (x : Reg) (b g : Byte) : (s.writeWithFlag x b g).stack = s.stack := rfl
@[simp] theorem writeWithFlag_sp (s : State) (x : Reg) (b g : Byte) : (s.writeWithFlag x b g).sp = s.sp := rfl
@[simp] theorem writeWithFlag_dt (s : State) (x : Reg) (b g : Byte) : (s.writeWithFlag x b g).dt = s.dt := rfl
@[simp] theorem writeWithFlag_st (s : State) (x : Reg) (b g : Byte) : (s.writeWithFlag x b g).st = s.st := rfl
@[simp] theorem writeWithFlag_key (s : State) (x : Reg) (b g : Byte) : (s.writeWithFlag x b g).key = s.key := rfl
@[simp] theorem writeWithFlag_grid (s : State) (x : Reg) (b g : Byte) : (s.writeWithFlag x b g).grid = s.grid := rfl
@[simp] theorem writeWithFlag_mode (s : State) (x : Reg) (b g : Byte) : (s.writeWithFlag x b g).mode = s.mode := rfl
@[simp] theorem writeWithFlag_mem (s : State) (x : Reg) (b g : Byte) : (s.writeWithFlag x b g).mem = s.mem := rfl
@[simp] theorem writeWithFlag_config (s : State) (x : Reg) (b g : Byte) : (s.writeWithFlag x b g).config = s.config := rfl
@[simp] theorem writeWithFlag_draws (s : State) (x : Reg) (b g : Byte) : (s.writeWithFlag x b g).draws = s.draws := rfl

@[simp] theorem skipIf_v (s : State) (c : Bool) : (s.skipIf c).v = s.v := by cases c <;> rfl
@[simp] theorem skipIf_i (s : State) (c : Bool) : (s.skipIf c).i = s.i := by cases c <;> rfl
@[simp] theorem skipIf_pc (s : State) (c : Bool) : (s.skipIf c).pc = if c then s.pc + 2 else s.pc := by cases c <;> rfl
@[simp] theorem skipIf_stack (s : State) (c : Bool) : (s.skipIf c).stack = s.stack := by cases c <;> rfl
@[simp] theorem skipIf_sp (s : State) (c : Bool) : (s.skipIf c).sp = s.sp := by cases c <;> rfl
@[simp] theorem skipIf_dt (s : State) (c : Bool) : (s.skipIf c).dt = s.dt := by cases c <;> rfl
@[simp] theorem skipIf_st (s : State) (c : Bool) : (s.skipIf c).st = s.st := by cases c <;> rfl
@[simp] theorem skipIf_key (s : State) (c : Bool) : (s.skipIf c).key = s.key := by cases c <;> rfl
@[simp] theorem skipIf_grid (s : State) (c : Bool) : (s.skipIf c).grid = s.grid := by cases c <;> rfl
@[simp] theorem skipIf_mode (s : State) (c : Bool) : (s.skipIf c).mode = s.mode := by cases c <;> rfl
@[simp] theorem skipIf_mem (s : State) (c : Bool) : (s.skipIf c).mem = s.mem := by cases c <;> rfl
@[simp] theorem skipIf_config (s : State) (c : Bool) : (s.skipIf c).config = s.config := by cases c <;> rfl
@[simp] theorem skipIf_draws (s : State) (c : Bool) : (s.skipIf c).draws = s.draws := by cases c <;> rfl

@[simp] theorem storeBytes_v (s : State) (a : Nat) (ws : List Byte) : (s.storeBytes a ws).v = s.v := by
  induction ws generalizing s a with
  | nil => rfl
  | cons w ws ih => exact ih ..
@[simp] theorem storeBytes_i (s : State) (a : Nat) (ws : List Byte) : (s.storeBytes a ws).i = s.i := by
  induction ws generalizing s a with
  | nil => rfl
  | cons w ws ih => exact ih ..
@[simp] theorem storeBytes_pc (s : State) (a : Nat) (ws : List Byte) : (s.storeBytes a ws).pc = s.pc := by
  induction ws generalizing s a with
  | nil => rfl
  | cons w ws ih => exact ih ..
@[simp] theorem storeBytes_stack (s : State) (a : Nat) (ws : List Byte) : (s.storeBytes a ws).stack = s.stack := by
  induction ws generalizing s a with
  | nil => rfl
  | cons w ws ih => exact ih ..
@[simp] theorem storeBytes_sp (s : State) (a : Nat) (ws : List Byte) : (s.storeBytes a ws).sp = s.sp := by
  induction ws generalizing s a with
  | nil => rfl
  | cons w ws ih => exact ih ..
@[simp] theorem storeBytes_dt (s : State) (a : Nat) (ws : List Byte) : (s.storeBytes a ws).dt = s.dt := by
  induction ws generalizing s a with
  | nil => rfl
  | cons w ws ih => exact ih ..
@[simp] theorem storeBytes_st (s : State) (a : Nat) (ws : List Byte) : (s.storeBytes a ws).st = s.st := by
  induction ws generalizing s a with
  | nil => rfl
  | cons w ws ih => exact ih ..
@[simp] theorem storeBytes_key (s : State) (a : Nat) (ws : List Byte) : (s.storeBytes a ws).key = s.key := by
  induction ws generalizing s a with
  | nil => rfl
  | cons w ws ih => exact ih ..
@[simp] theorem storeBytes_grid (s : State) (a : Nat) (ws : List Byte) : (s.storeBytes a ws).grid = s.grid := by
  induction ws generalizing s a with
  | nil => rfl
  | cons w ws ih => exact ih ..
@[simp] theorem storeBytes_mode (s : State) (a : Nat) (ws : List Byte) : (s.storeBytes a ws).mode = s.mode := by
  induction ws generalizing s a with
  | nil => rfl
  | cons w ws ih => exact ih ..
@[simp] theorem storeBytes_config (s : State) (a : Nat) (ws : List Byte) : (s.storeBytes a ws).config = s.config := by
  induction ws generalizing s a with
  | nil => rfl
  | cons w ws ih => exact ih ..
@[simp] theorem storeBytes_draws (s : State) (a : Nat) (ws : List Byte) : (s.storeBytes a ws).draws = s.draws := by
  induction ws generalizing s a with
  | nil => rfl
  | cons w ws ih => exact ih ..

/-- Everything but memory stays through a store of bytes. -/
theorem storeBytes_eq (s : State) (a : Nat) (ws : List Byte) :
    s.storeBytes a ws = { s with mem := (s.storeBytes a ws).mem } := by
  cases h : s.storeBytes a ws
  simp only [mk.injEq]
  refine ⟨?_, ?_, ?_, ?_, ?_, ?_, ?_, ?_, ?_, ?_, trivial, ?_, ?_⟩
  · exact (congrArg v h).symm.trans (storeBytes_v ..)
  · exact (congrArg i h).symm.trans (storeBytes_i ..)
  · exact (congrArg pc h).symm.trans (storeBytes_pc ..)
  · exact (congrArg stack h).symm.trans (storeBytes_stack ..)
  · exact (congrArg sp h).symm.trans (storeBytes_sp ..)
  · exact (congrArg dt h).symm.trans (storeBytes_dt ..)
  · exact (congrArg st h).symm.trans (storeBytes_st ..)
  · exact (congrArg key h).symm.trans (storeBytes_key ..)
  · exact (congrArg grid h).symm.trans (storeBytes_grid ..)
  · exact (congrArg mode h).symm.trans (storeBytes_mode ..)
  · exact (congrArg config h).symm.trans (storeBytes_config ..)
  · exact (congrArg draws h).symm.trans (storeBytes_draws ..)

/-- V[k] after a write of V[x]. -/
theorem readV_writeV (s : State) (x k : Reg) (b : Byte) :
    (s.writeV x b).readV k = if k = x then b else s.readV k := get_set ..

/-- V[k] after a result and a flag: the flag is written last (R140). -/
theorem readV_writeWithFlag (s : State) (x k : Reg) (b g : Byte) :
    (s.writeWithFlag x b g).readV k = if k = VF then g else if k = x then b else s.readV k := by
  rw [writeWithFlag, readV_writeV, readV_writeV]

end State
end Sys2Proof.Machine
end

