-- ==== Sys2Proof/Laws/Memory.lean ====
section
/-! SUPPORT. The laws of memory: a read after a write, the canonical form, and that equal reads mean equal memories. -/

namespace Sys2Proof.Machine

namespace Memory

variable {font : FontRom} {m n : Memory} {a b lo : Nat} {w u : Byte}

theorem lookup_insert (m : Memory) (a b : Nat) (w : Byte) :
    (m.insert a w).lookup b = if a = b then some w else m.lookup b := by
  induction m with
  | nil => simp only [insert, lookup]
  | cons e m ih =>
    obtain ⟨c, u⟩ := e
    simp only [insert]
    split
    · simp only [lookup]
    · split
      · subst c; simp only [lookup]; split <;> rfl
      · simp only [lookup, ih]; split <;> split <;> first | rfl | omega

theorem lookup_erase (m : Memory) (a b : Nat) :
    (m.erase a).lookup b = if a = b then none else m.lookup b := by
  induction m with
  | nil => simp only [erase, lookup, ite_self]
  | cons e m ih =>
    obtain ⟨c, u⟩ := e
    simp only [erase]
    split
    · subst c; simp only [lookup, ih]; split <;> rfl
    · simp only [lookup, ih]; split <;> split <;> first | rfl | omega

/-- A read after a write gives the value written at its address, and what was there elsewhere. -/
theorem read_write (font : FontRom) (m : Memory) (a b : Nat) (w : Byte) :
    (m.write font a w).read font b = if a = b then w else m.read font b := by
  unfold write
  split
  · rename_i h
    simp only [read, lookup_erase]
    split
    · subst b; exact h.symm
    · rfl
  · simp only [read, lookup_insert]
    split <;> rfl

/-- The canonical form of a listed entry and the rest. -/
theorem wfFrom_cons : wfFrom font lo ((b, u) :: m) = true ↔
    lo ≤ b ∧ b < 4096 ∧ u ≠ unlisted font b ∧ wfFrom font (b + 1) m = true := by
  simp only [wfFrom, Bool.and_eq_true, decide_eq_true_eq, Config.memSize, and_assoc]

theorem wfFrom_mono (h : wfFrom font lo m = true) (hb : b ≤ lo) : wfFrom font b m = true := by
  cases m with
  | nil => rfl
  | cons e m => rw [wfFrom_cons] at *; exact ⟨hb.trans h.1, h.2⟩

theorem wfFrom_erase (h : wfFrom font lo m = true) : wfFrom font lo (m.erase a) = true := by
  induction m generalizing lo with
  | nil => rfl
  | cons e m ih =>
    obtain ⟨c, u⟩ := e
    rw [wfFrom_cons] at h
    simp only [erase]
    split
    · exact wfFrom_mono (ih h.2.2.2) (by omega)
    · exact wfFrom_cons.2 ⟨h.1, h.2.1, h.2.2.1, ih h.2.2.2⟩

theorem wfFrom_insert (h : wfFrom font lo m = true) (hlo : lo ≤ a) (ha : a < 4096) (hw : w ≠ unlisted font a) :
    wfFrom font lo (m.insert a w) = true := by
  induction m generalizing lo with
  | nil => exact wfFrom_cons.2 ⟨hlo, ha, hw, rfl⟩
  | cons e m ih =>
    obtain ⟨c, u⟩ := e
    rw [wfFrom_cons] at h
    simp only [insert]
    split
    · exact wfFrom_cons.2 ⟨hlo, ha, hw, wfFrom_cons.2 ⟨by omega, h.2⟩⟩
    · split
      · subst c; exact wfFrom_cons.2 ⟨hlo, ha, hw, h.2.2.2⟩
      · exact wfFrom_cons.2 ⟨h.1, h.2.1, h.2.2.1, ih h.2.2.2 (by omega)⟩

/-- A write keeps the canonical form. -/
theorem wf_write (h : m.wf font = true) (ha : a < 4096) : (m.write font a w).wf font = true := by
  unfold write
  split
  · exact wfFrom_erase h
  · exact wfFrom_insert h (Nat.zero_le _) ha ‹_›

theorem lookup_of_wfFrom (h : wfFrom font lo m = true) (ha : a < lo) : m.lookup a = none := by
  induction m generalizing lo with
  | nil => rfl
  | cons e m ih =>
    obtain ⟨c, u⟩ := e
    rw [wfFrom_cons] at h
    rw [lookup, if_neg (by omega)]
    exact ih h.2.2.2 (by omega)

theorem read_cons (m : Memory) (b a : Nat) (u : Byte) :
    read font ((b, u) :: m) a = if b = a then u else m.read font a := by
  simp only [read, lookup]
  split <;> rfl

theorem read_of_wfFrom (h : wfFrom font lo m = true) (ha : a < lo) : m.read font a = unlisted font a := by
  rw [read, lookup_of_wfFrom h ha]; rfl

/-- Canonical memories that read alike are the same list: equal memories are equal data. -/
theorem ext_of_wfFrom (hm : wfFrom font lo m = true) (hn : wfFrom font lo n = true)
    (h : ∀ a, m.read font a = n.read font a) : m = n := by
  induction m generalizing lo n with
  | nil =>
    cases n with
    | nil => rfl
    | cons e n =>
      obtain ⟨c, u⟩ := e
      have := h c
      rw [read_cons, if_pos rfl] at this
      exact absurd this.symm (wfFrom_cons.1 hn).2.2.1
  | cons e m ih =>
    obtain ⟨b, u⟩ := e
    have hm' := wfFrom_cons.1 hm
    have hb := h b
    rw [read_cons, if_pos rfl] at hb
    cases n with
    | nil => exact absurd hb hm'.2.2.1
    | cons e n =>
      obtain ⟨c, w⟩ := e
      have hn' := wfFrom_cons.1 hn
      have hc := h c
      rw [read_cons, read_cons, if_pos rfl] at hc
      rw [read_cons] at hb
      obtain hlt | rfl | hgt := Nat.lt_trichotomy b c
      · rw [if_neg (by omega), read_of_wfFrom hn'.2.2.2 (by omega)] at hb
        exact absurd hb hm'.2.2.1
      · rw [if_pos rfl] at hb
        subst hb
        congr 1
        refine ih hm'.2.2.2 hn'.2.2.2 fun a => ?_
        have ha := h a
        rw [read_cons, read_cons] at ha
        split at ha
        · subst a; rw [read_of_wfFrom hm'.2.2.2 (by omega), read_of_wfFrom hn'.2.2.2 (by omega)]
        · exact ha
      · rw [if_neg (by omega), read_of_wfFrom hm'.2.2.2 (by omega)] at hc
        exact absurd hc.symm hn'.2.2.1

theorem ext_of_wf (hm : m.wf font = true) (hn : n.wf font = true) (h : ∀ a, m.read font a = n.read font a) : m = n :=
  ext_of_wfFrom hm hn h

end Memory

namespace State

/-- A byte after a store of one byte. -/
theorem byteAt_storeByte (s : State) (a b : Nat) (w : Byte) :
    (s.storeByte a w).byteAt b = if a = b then w else s.byteAt b := Memory.read_write ..

/-- A byte after a store of consecutive bytes. -/
theorem byteAt_storeBytes (s : State) (a b : Nat) (ws : List Byte) :
    (s.storeBytes a ws).byteAt b = if h : a ≤ b ∧ b < a + ws.length then ws[b - a]'(by omega) else s.byteAt b := by
  induction ws generalizing s a with
  | nil => rw [dif_neg (by simp only [List.length_nil]; omega)]; rfl
  | cons w ws ih =>
    rw [storeBytes, ih]
    simp only [List.length_cons]
    by_cases h : a + 1 ≤ b ∧ b < a + 1 + ws.length
    · have hs : b - a = (b - (a + 1)) + 1 := by omega
      rw [dif_pos h, dif_pos (by omega)]
      simp only [hs, List.getElem_cons_succ]
    · rw [dif_neg h, byteAt_storeByte]
      split
      · subst b; rw [dif_pos (by omega)]; simp
      · rw [dif_neg (by omega)]

/-- A store of consecutive bytes below 4096 keeps the canonical form. -/
theorem storeBytes_wf (s : State) (a : Nat) (ws : List Byte) (h : s.mem.wf s.config.fontRom = true)
    (ha : a + ws.length ≤ 4096) : (s.storeBytes a ws).mem.wf s.config.fontRom = true := by
  induction ws generalizing s a with
  | nil => exact h
  | cons w ws ih =>
    simp only [List.length_cons] at ha
    exact ih (s.storeByte a w) (a + 1) (Memory.wf_write h (by omega)) (by omega)

end State
end Sys2Proof.Machine
end

