-- ==== Sys2Proof/Laws/Ops.lean ====
section
/-! SUPPORT. One lemma per shared operation of Machine/Ops.lean, saying everything it can do: the stack, the checks and what
an all-or-nothing execute phase answers, register transfers, the grid, the key vector. -/

namespace Sys2Proof.Machine

/-! ### The call stack -/

/-- A push that succeeds (R27). -/
theorem push_ok {a : Word} {s t : State} (h : push a s = .ok t) :
    ∃ hs : s.sp.val < 16, t = { s with stack := s.stack.set s.sp.val a, sp := ⟨s.sp.val + 1, by omega⟩ } := by
  unfold push at h
  split at h
  · exact ⟨‹_›, (Except.ok.inj h).symm⟩
  · cases h

/-- A push that fails (R27). -/
theorem push_error {a : Word} {s : State} {e : Fault} (h : push a s = .error e) : s.sp.val = 16 ∧ e = .stackOverflow := by
  have := s.sp.isLt
  unfold push at h
  split at h
  · cases h
  · rename_i hs
    exact ⟨by simp only [Config.stackDepth] at hs; omega, (Except.error.inj h).symm⟩

/-- A pop that succeeds (R28). -/
theorem pop_ok {s t : State} {a : Word} (h : pop s = .ok (a, t)) :
    ∃ _ : s.sp.val ≠ 0, a = s.stack[s.sp.val - 1]'(by omega) ∧ t = { s with sp := ⟨s.sp.val - 1, by omega⟩ } := by
  unfold pop at h
  split at h
  · cases h
  · have := Except.ok.inj h
    exact ⟨‹_›, (congrArg Prod.fst this).symm, (congrArg Prod.snd this).symm⟩

/-- A pop that fails (R28). -/
theorem pop_error {s : State} {e : Fault} (h : pop s = .error e) : s.sp.val = 0 ∧ e = .stackUnderflow := by
  unfold pop at h
  split at h
  · exact ⟨‹_›, (Except.error.inj h).symm⟩
  · cases h

/-! ### Checks and the all-or-nothing execute phase -/

@[simp] theorem guarded_none (s t : State) : guarded none s t = .next t := rfl

@[simp] theorem guarded_raise (e : Fault) (s t : State) :
    guarded (some (.raise e)) s t = .next { s with mode := .faulted e } := rfl

@[simp] theorem guarded_refuse (r : Refusal) (s t : State) : guarded (some (.refuse r)) s t = .refused r := rfl

/-- What a guarded execute phase can answer as its next state. -/
theorem guarded_next {stop : Option Stop} {s t u : State} (h : guarded stop s t = .next u) :
    stop = none ∧ u = t ∨ ∃ e, stop = some (.raise e) ∧ u = { s with mode := .faulted e } := by
  unfold guarded at h
  split at h
  · exact .inr ⟨_, rfl, (Host.Outcome.next.inj h).symm⟩
  · cases h
  · exact .inl ⟨rfl, (Host.Outcome.next.inj h).symm⟩

/-- When a guarded execute phase is refused. -/
theorem guarded_refused {stop : Option Stop} {s t : State} {r : Refusal} (h : guarded stop s t = .refused r) :
    stop = some (.refuse r) := by
  unfold guarded at h
  split at h
  · cases h
  · rw [Host.Outcome.refused.inj h]
  · cases h

/-- A guarded execute phase never ends in a fault outcome. -/
theorem guarded_ne_fault (stop : Option Stop) (s t : State) (e : Fault) : guarded stop s t ≠ .fault e := by
  unfold guarded
  split <;> exact fun h => nomatch h

theorem firstStop_succ (s : State) (check : Nat → Option Stop) (n : Nat) :
    s.firstStop check (n + 1) = (s.firstStop check n).or (check (s.indexAddr n)) := by
  simp only [State.firstStop, List.range_succ, List.findSome?_append, List.findSome?_cons, List.findSome?_nil]
  cases check (s.indexAddr n) <;> rfl

@[simp] theorem firstStop_zero (s : State) (check : Nat → Option Stop) : s.firstStop check 0 = none := rfl

theorem readStop_eq (a : Nat) : readStop a = if 4096 ≤ a then some (.raise (.outOfBounds a)) else none := rfl

theorem writeStop_eq (a : Nat) : writeStop a =
    if 4096 ≤ a then some (.raise (.outOfBounds a)) else if a < 0x050 then some (.refuse (.fontRegionWrite a)) else none :=
  rfl

/-- The read checks of `n` bytes from I: OutOfBounds with the first offending address (R133, R175). -/
theorem firstStop_read (s : State) (n : Nat) : s.firstStop readStop n =
    if n = 0 ∨ s.i.toNat + n ≤ 4096 then none else some (.raise (.outOfBounds (max s.i.toNat 4096))) := by
  induction n with
  | zero => simp
  | succ n ih =>
    rw [firstStop_succ, ih, readStop_eq, State.indexAddr]
    by_cases h1 : s.i.toNat + (n + 1) ≤ 4096
    · rw [if_pos (by omega), if_neg (by omega), if_pos (by omega)]; rfl
    · rw [if_neg (by omega : ¬(n + 1 = 0 ∨ s.i.toNat + (n + 1) ≤ 4096))]
      by_cases h2 : n = 0 ∨ s.i.toNat + n ≤ 4096
      · rw [if_pos h2, if_pos (by omega), Option.none_or, show max s.i.toNat 4096 = s.i.toNat + n by omega]
      · rw [if_neg h2]; rfl

/-- The write checks of `n` bytes from I, at least one: OutOfBounds or the font region, at the first offending address
(R173, R174). -/
theorem firstStop_write (s : State) (n : Nat) (hn : 0 < n) : s.firstStop writeStop n =
    if s.i.toNat < 0x050 then some (.refuse (.fontRegionWrite s.i.toNat))
    else if s.i.toNat + n ≤ 4096 then none else some (.raise (.outOfBounds (max s.i.toNat 4096))) := by
  induction n with
  | zero => omega
  | succ n ih =>
    rw [firstStop_succ, writeStop_eq, State.indexAddr]
    by_cases h0 : n = 0
    · subst n
      rw [firstStop_zero, Option.none_or, Nat.add_zero, Nat.zero_add]
      by_cases h1 : s.i.toNat < 0x050
      · rw [if_neg (by omega), if_pos h1, if_pos h1]
      · rw [if_neg h1, if_neg h1]
        split
        · rw [if_neg (by omega), show max s.i.toNat 4096 = s.i.toNat by omega]
        · rw [if_pos (by omega)]
    · rw [ih (by omega)]
      by_cases h1 : s.i.toNat < 0x050
      · rw [if_pos h1, if_pos h1]; rfl
      · rw [if_neg h1, if_neg h1]
        by_cases h2 : s.i.toNat + (n + 1) ≤ 4096
        · rw [if_pos h2, if_pos (by omega), if_neg (by omega), if_neg (by omega)]; rfl
        · rw [if_neg h2]
          by_cases h3 : s.i.toNat + n ≤ 4096
          · rw [if_pos h3, if_pos (by omega), show max s.i.toNat 4096 = s.i.toNat + n by omega]; rfl
          · rw [if_neg h3]; rfl

/-! ### Register and byte transfers -/

@[simp] theorem bytesFrom_length (s : State) (a n : Nat) : (s.bytesFrom a n).length = n := by simp [State.bytesFrom]

@[simp] theorem bytesFrom_getElem (s : State) (a n k : Nat) (h : k < (s.bytesFrom a n).length) :
    (s.bytesFrom a n)[k] = s.byteAt (a + k) := by simp [State.bytesFrom]

@[simp] theorem regsUpTo_length (s : State) (x : Reg) : (s.regsUpTo x).length = x.val + 1 := by
  simp only [State.regsUpTo, List.length_take, Vector.length_toList]; omega

@[simp] theorem regsUpTo_getElem (s : State) (x : Reg) (k : Nat) (h : k < (s.regsUpTo x).length) :
    (s.regsUpTo x)[k] = s.readV ⟨k, by simp at h; omega⟩ := by
  simp [State.regsUpTo, State.readV, Vector.get_eq_getElem]

/-- A register after bytes went into consecutive registers. -/
theorem fillRegs_get (v : Vector Byte 16) (k : Nat) (bs : List Byte) (j : Reg) :
    (fillRegs v k bs).get j = if h : k ≤ j.val ∧ j.val < k + bs.length then bs[j.val - k]'(by omega) else v.get j := by
  induction bs generalizing v k with
  | nil => rw [dif_neg (by simp only [List.length_nil]; omega)]; rfl
  | cons b bs ih =>
    rw [fillRegs, ih]
    simp only [List.length_cons]
    by_cases h : k + 1 ≤ j.val ∧ j.val < k + 1 + bs.length
    · have hs : j.val - k = (j.val - (k + 1)) + 1 := by omega
      rw [dif_pos h, dif_pos (by omega)]
      simp only [hs, List.getElem_cons_succ]
    · rw [dif_neg h, Vector.get_eq_getElem, Vector.getElem_setIfInBounds]
      split
      · subst k; rw [dif_pos (by omega)]; simp
      · rw [dif_neg (by omega), Vector.get_eq_getElem]

/-! ### The grid -/

/-- A pixel after one cell was toggled. -/
theorem pixel_toggle (g : Grid) (c c' : Fin 64) (r r' : Fin 32) :
    Grid.pixel (g.toggle c r) c' r' = if c' = c ∧ r' = r then !g.pixel c r else g.pixel c' r' := by
  simp only [Grid.pixel, Grid.toggle, get_set]
  by_cases hr : r' = r
  · subst r'
    by_cases hc : c' = c
    · subst c'; simp [get_set]
    · simp [get_set, hc]
  · simp [hr]

@[simp] theorem pixel_clear (c : Fin 64) (r : Fin 32) : Grid.pixel Grid.clear c r = false := by
  simp [Grid.pixel, Grid.clear, Vector.get_eq_getElem]

/-- Grids with the same pixels are the same grid. -/
theorem grid_ext {g g' : Grid} (h : ∀ c r, g.pixel c r = g'.pixel c r) : g = g' :=
  vector_ext fun r => vector_ext fun c => h c r

/-- What a draw of the rows `bs` from row offset `r` does to one cell: it is toggled iff the sprite pixel that lands on it
is 1. Stated for one sprite pixel. -/
theorem drawPixel_pixel (cx cy r : Nat) (b : Byte) (k : Grid × Bool) (c : Nat) (c' : Fin 64) (r' : Fin 32) :
    Grid.pixel (drawPixel cx cy r b k c).1 c' r' =
      (k.1.pixel c' r' ^^ (spriteBit b c && decide (c' = wrapColumn (cx + c) ∧ r' = wrapRow (cy + r)))) := by
  unfold drawPixel
  split
  · rename_i h
    rw [h, pixel_toggle]
    split
    · rename_i hc; rw [decide_eq_true hc, hc.1, hc.2]; simp
    · rename_i hc; rw [decide_eq_false hc]; simp
  · rename_i h
    rw [Bool.not_eq_true] at h
    simp [h]

/-! ### The key vector -/

/-- No key is pressed. -/
theorem lowestKey_none {key : Vector Bool 16} : lowestKey key = none ↔ ∀ k : Fin 16, key.get k = false := by
  simp only [lowestKey, List.findIdx?_eq_none_iff, Vector.mem_toList_iff, Vector.mem_iff_getElem, id_eq,
    forall_exists_index, Vector.get_eq_getElem]
  exact ⟨fun h k => h _ k.val k.isLt rfl, fun h x k hk e => e ▸ h ⟨k, hk⟩⟩

/-- The lowest-numbered pressed key (R95). -/
theorem lowestKey_some {key : Vector Bool 16} {n : Nat} : lowestKey key = some n ↔
    ∃ h : n < 16, key.get ⟨n, h⟩ = true ∧ ∀ j : Fin 16, j.val < n → key.get j = false := by
  simp only [lowestKey, List.findIdx?_eq_some_iff_getElem, Vector.length_toList, Vector.getElem_toList, id_eq,
    Vector.get_eq_getElem, Bool.not_eq_true]
  exact ⟨fun ⟨h, hk, hj⟩ => ⟨h, hk, fun j hjn => hj j.val hjn⟩,
    fun ⟨h, hk, hj⟩ => ⟨h, hk, fun j hjn => hj ⟨j, by omega⟩ hjn⟩⟩

end Sys2Proof.Machine
end

