-- ==== Sys2Proof/Laws/Step.lean ====
section
/-! SUPPORT. What a step can do, said once: by mode, and for a running step by fetch and decode; placing and fetching a word. -/

namespace Sys2Proof.Machine

/-! ### A step by mode -/

theorem step_running {s : State} (h : s.mode = .running) : step s = stepRunning s := by
  unfold step; rw [h]

theorem step_awaiting {s : State} {x : Reg} (h : s.mode = .awaitingKey x) : step s = .next (pollKeys x s) := by
  unfold step; rw [h]; rfl

theorem step_faulted {s : State} {e : Fault} (h : s.mode = .faulted e) : step s = .next s := by
  unfold step; rw [h]; rfl

/-! ### The fetch -/

/-- A fetch inside memory reads the big-endian word at `pc` (R53, R92). -/
theorem fetchWord_ok {s : State} (h : s.pc.toNat + 1 < 4096) :
    fetchWord s = .ok (wordOfBytes (s.byteAt s.pc.toNat) (s.byteAt (s.pc.toNat + 1))) := by
  unfold fetchWord memReadWord
  rw [if_neg (by simp only [Config.memSize]; omega), if_neg (by simp only [Config.memSize]; omega)]

/-- A fetch outside memory raises OutOfBounds with the first offending address (R92). -/
theorem fetchWord_error {s : State} (h : 4096 ≤ s.pc.toNat + 1) :
    fetchWord s = .error (.outOfBounds (max s.pc.toNat 4096)) := by
  unfold fetchWord memReadWord
  by_cases h1 : 4096 ≤ s.pc.toNat
  · rw [if_pos h1, show max s.pc.toNat 4096 = s.pc.toNat by omega]
  · rw [if_neg h1, if_pos h, show max s.pc.toNat 4096 = s.pc.toNat + 1 by omega]

/-- The word of a state that has it at `pc`. -/
theorem fetchWord_of_fetches {s : State} {op : Word} (h : FetchesWord s op) : fetchWord s = .ok op := by
  rw [fetchWord_ok h.1, h.2.1, h.2.2, wordOfBytes_hi_lo]

/-- The word a fetch inside memory reads lies at `pc`. -/
theorem fetches_of_fetchWord {s : State} {op : Word} (h : fetchWord s = .ok op) (hp : s.pc.toNat + 1 < 4096) :
    FetchesWord s op := by
  rw [fetchWord_ok hp] at h
  cases h
  exact ⟨hp, (hiByte_wordOfBytes ..).symm, (loByte_wordOfBytes ..).symm⟩

/-! ### Decoding -/

theorem decodeWord_ok {op : Word} {i : Instr} : decodeWord op = .ok i ↔ decodeRow op = some i := by
  unfold decodeWord
  cases decodeRow op <;> simp

theorem decodeWord_error {op : Word} {r : DecodeReject} :
    decodeWord op = .error r ↔ decodeRow op = none ∧ r = .invalidOpcode op := by
  unfold decodeWord
  cases decodeRow op <;> simp [eq_comm]

/-! ### What a running step can do -/

/-- A running step either fails its fetch, or meets a word of no row, or executes the decoded instruction on the state after
the fetch (R91, R92, R76). -/
theorem stepRunning_cases (s : State) :
    (4096 ≤ s.pc.toNat + 1 ∧ stepRunning s = .next { s with mode := .faulted (.outOfBounds (max s.pc.toNat 4096)) }) ∨
    (∃ op, fetchWord s = .ok op ∧ s.pc.toNat + 1 < 4096 ∧ decodeRow op = none ∧
      stepRunning s = .next { s.advance with mode := .faulted (.invalidOpcode op) }) ∨
    (∃ op i, fetchWord s = .ok op ∧ s.pc.toNat + 1 < 4096 ∧ decodeRow op = some i ∧ stepRunning s = exec i s.advance) := by
  unfold stepRunning
  by_cases h : 4096 ≤ s.pc.toNat + 1
  · rw [fetchWord_error h]; exact .inl ⟨h, rfl⟩
  · have hf := fetchWord_ok (s := s) (by omega)
    rw [hf]
    refine .inr ?_
    cases hd : decodeRow (wordOfBytes (s.byteAt s.pc.toNat) (s.byteAt (s.pc.toNat + 1))) with
    | none => exact .inl ⟨_, rfl, by omega, hd, by simp only [runWord, hd]; rfl⟩
    | some i => exact .inr ⟨_, i, rfl, by omega, hd, by simp only [runWord, hd]⟩

/-! ### Placing a word -/

/-- A state with a placed word fetches exactly it. -/
theorem fetchWord_withFetchWord (s : State) (nbits w : Nat) : fetchWord (s.withFetchWord nbits w) = .ok (tableWord nbits w) := by
  have ha : placeAddr s + 1 < 4096 := by
    unfold placeAddr
    split
    · assumption
    · decide
  have hpc : (s.withFetchWord nbits w).pc.toNat = placeAddr s := by
    simp only [State.withFetchWord, placeWord, BitVec.toNat_ofNat]; omega
  have hb (b : Nat) : (s.withFetchWord nbits w).byteAt b =
      (s.storeBytes (placeAddr s) [hiByte (tableWord nbits w), loByte (tableWord nbits w)]).byteAt b := rfl
  refine fetchWord_of_fetches ⟨by omega, ?_, ?_⟩
  · rw [hpc, hb, State.byteAt_storeBytes, dif_pos (by simp)]; simp
  · rw [hpc, hb, State.byteAt_storeBytes, dif_pos (by simp)]; simp

end Sys2Proof.Machine
end

