-- ==== Sys2Proof/Laws/Exec.lean ====
section
/-! SUPPORT. What the execute phases with more than one outcome answer, in closed form; and what an execute phase that halts
or is refused says about its instruction. -/

namespace Sys2Proof.Machine

/-! ### Closed forms -/

theorem exec_call (nnn : Addr) (s : State) : exec (.call nnn) s =
    if h : s.sp.val < 16 then
      .next { s with stack := s.stack.set s.sp.val s.pc, sp := ⟨s.sp.val + 1, by omega⟩, pc := zextAddr nnn }
    else .next { s with mode := .faulted .stackOverflow } := by
  by_cases h : s.sp.val < 16
  · have hp : push s.pc s = .ok _ := dif_pos h
    rw [dif_pos h]; simp only [exec, execCall, hp]; rfl
  · have hp : push s.pc s = .error _ := dif_neg h
    rw [dif_neg h]; simp only [exec, execCall, hp]; rfl

theorem exec_ret (s : State) : exec .ret s =
    if _h : s.sp.val = 0 then .next { s with mode := .faulted .stackUnderflow }
    else .next { s with sp := ⟨s.sp.val - 1, by omega⟩, pc := s.stack[s.sp.val - 1]'(by omega) } := by
  by_cases h : s.sp.val = 0
  · have hp : pop s = .error _ := dif_pos h
    rw [dif_pos h]; simp only [exec, execRet, hp]; rfl
  · have hp : pop s = .ok _ := dif_neg h
    rw [dif_neg h]; simp only [exec, execRet, hp]; rfl

theorem exec_drw (x y n : Reg) (s : State) : exec (.drw x y n) s =
    if n.val = 0 ∨ s.i.toNat + n.val ≤ 4096 then
      .next (State.writeV { s with grid := (s.blit x y n).1 } VF (collisionFlag (s.blit x y n).2))
    else .next { s with mode := .faulted (.outOfBounds (max s.i.toNat 4096)) } := by
  simp only [exec, execDrw, firstStop_read]
  split <;> rfl

theorem exec_ldVxMem (x : Reg) (s : State) : exec (.ldVxMem x) s =
    if s.i.toNat + x.val + 1 ≤ 4096 then
      .next { s with v := fillRegs s.v 0 (s.bytesFrom s.i.toNat (x.val + 1)) }
    else .next { s with mode := .faulted (.outOfBounds (max s.i.toNat 4096)) } := by
  simp only [exec, execLdVxMem, firstStop_read]
  split <;> split <;> first | rfl | omega

/-- The bytes Fx33 and Fx55 store, as one operation: `n` bytes from I, or the stop of the first one that cannot be stored. -/
theorem guarded_store (s t : State) (n : Nat) (hn : 0 < n) : guarded (s.firstStop writeStop n) s t =
    if s.i.toNat < 0x050 then .refused (.fontRegionWrite s.i.toNat)
    else if s.i.toNat + n ≤ 4096 then .next t
    else .next { s with mode := .faulted (.outOfBounds (max s.i.toNat 4096)) } := by
  rw [firstStop_write s n hn]
  split
  · rfl
  · split <;> rfl

/-! ### What halts, and what is refused -/

/-- An execute phase that halts changes the mode only, and says which instruction it was (R210, R214). -/
theorem exec_faulted {i : Instr} {s t : State} {e : Fault} (hs : ∀ e, s.mode ≠ .faulted e) (h : exec i s = .next t)
    (ht : t.mode = .faulted e) : t = { s with mode := .faulted e } ∧
      ((e = .outOfBounds (max s.i.toNat 4096) ∧ ∃ x y n, i = .drw x y n ∨ i = .ldB x ∨ i = .ldMemVx x ∨ i = .ldVxMem x) ∨
        (e = .stackOverflow ∧ s.sp = 16 ∧ ∃ nnn, i = .call nnn) ∨
        (e = .stackUnderflow ∧ s.sp = 0 ∧ i = .ret)) := by
  have go {u : State} (hu : u.mode = s.mode) : (Host.Outcome.next u : Result) ≠ .next t := by
    intro he; cases he; exact absurd (hu ▸ ht) (hs e)
  have oob {a : Nat} (he : (Host.Outcome.next { s with mode := .faulted (.outOfBounds a) } : Result) = .next t) :
      e = .outOfBounds a ∧ t = { s with mode := .faulted e } := by
    cases he; cases ht; exact ⟨rfl, rfl⟩
  cases i with
  | ret =>
    rw [exec_ret] at h
    split at h
    · cases h; cases ht; exact ⟨rfl, .inr (.inr ⟨rfl, Fin.ext ‹_›, rfl⟩)⟩
    · exact absurd h (go rfl)
  | call nnn =>
    rw [exec_call] at h
    split at h
    · exact absurd h (go rfl)
    · cases h; cases ht; exact ⟨rfl, .inr (.inl ⟨rfl, Fin.ext (by have := s.sp.isLt; simp; omega), nnn, rfl⟩)⟩
  | drw x y n =>
    rw [exec_drw] at h
    split at h
    · exact absurd h (go rfl)
    · obtain ⟨h1, h2⟩ := oob h; exact ⟨h2, .inl ⟨h1, x, y, n, .inl rfl⟩⟩
  | ldVxMem x =>
    rw [exec_ldVxMem] at h
    split at h
    · exact absurd h (go rfl)
    · obtain ⟨h1, h2⟩ := oob h; exact ⟨h2, .inl ⟨h1, x, x, x, by simp⟩⟩
  | ldB x =>
    simp only [exec, execLdB, guarded_store s _ 3 (by omega)] at h
    split at h
    · cases h
    · split at h
      · exact absurd h (go (by simp))
      · obtain ⟨h1, h2⟩ := oob h; exact ⟨h2, .inl ⟨h1, x, x, x, by simp⟩⟩
  | ldMemVx x =>
    simp only [exec, execLdMemVx, guarded_store s _ (x.val + 1) (by omega)] at h
    split at h
    · cases h
    · split at h
      · exact absurd h (go (by simp))
      · obtain ⟨h1, h2⟩ := oob h; exact ⟨h2, .inl ⟨h1, x, x, x, by simp⟩⟩
  | skp x =>
    simp only [exec, execSkp, skipOnKey] at h
    split at h
    · cases h
    · exact absurd h (go (by simp))
  | sknp x =>
    simp only [exec, execSknp, skipOnKey] at h
    split at h
    · cases h
    · exact absurd h (go (by simp))
  | ldF x =>
    simp only [exec, execLdF] at h
    split at h
    · cases h
    · exact absurd h (go rfl)
  | ldVxK x => cases h; cases ht
  | addI x => exact absurd h (go (by simp only [State.addIndex]; split <;> rfl))
  | _ => exact absurd h (go (by first | rfl | simp))

/-- When an execute phase is refused, and with what (R211). -/
theorem exec_refused {i : Instr} {s : State} {r : Refusal} : exec i s = .refused r ↔
    ∃ x, ((i = .ldB x ∨ i = .ldMemVx x) ∧ s.i.toNat < 0x050 ∧ r = .fontRegionWrite s.i.toNat) ∨
      ((i = .skp x ∨ i = .sknp x) ∧ 15 < (s.readV x).toNat ∧ r = .keyIndexRange (s.readV x)) ∨
      (i = .ldF x ∧ 15 < (s.readV x).toNat ∧ r = .fontDigitRange (s.readV x)) := by
  cases i with
  | ret => rw [exec_ret]; split <;> simp
  | call nnn => rw [exec_call]; split <;> simp
  | drw x y n => rw [exec_drw]; split <;> simp
  | ldVxMem x => rw [exec_ldVxMem]; split <;> simp
  | ldB x =>
    simp only [exec, execLdB, guarded_store s _ 3 (by omega)]
    split
    · simp [*, eq_comm]
    · split <;> simp [*]
  | ldMemVx x =>
    simp only [exec, execLdMemVx, guarded_store s _ (x.val + 1) (by omega)]
    split
    · simp [*, eq_comm]
    · split <;> simp [*]
  | skp x => simp only [exec, execSkp, skipOnKey]; split <;> simp [refuseStep, *, eq_comm]
  | sknp x => simp only [exec, execSknp, skipOnKey]; split <;> simp [refuseStep, *, eq_comm]
  | ldF x => simp only [exec, execLdF]; split <;> simp [refuseStep, *, eq_comm]
  | _ => exact ⟨(nomatch ·), by simp⟩

/-- No execute phase ends in a fault outcome. -/
theorem exec_ne_fault (i : Instr) (s : State) (e : Fault) : exec i s ≠ .fault e := by
  cases i with
  | ret => rw [exec_ret]; split <;> exact nofun
  | call nnn => rw [exec_call]; split <;> exact nofun
  | drw x y n => exact guarded_ne_fault _ _ _ e
  | ldVxMem x => exact guarded_ne_fault _ _ _ e
  | ldB x => exact guarded_ne_fault _ _ _ e
  | ldMemVx x => exact guarded_ne_fault _ _ _ e
  | skp x => simp only [exec, execSkp, skipOnKey]; split <;> exact nofun
  | sknp x => simp only [exec, execSknp, skipOnKey]; split <;> exact nofun
  | ldF x => simp only [exec, execLdF]; split <;> exact nofun
  | _ => exact nofun

end Sys2Proof.Machine
end

