-- ==== Sys2Proof/Laws/Draw.lean ====
section
/-! SUPPORT. What a draw does to the grid, said once: per sprite row and for all rows, a cell changes iff a 1 bit lands on it,
and a collision is a 1 bit that lands on a set cell (R133). No cell is met twice, since a row is 8 of 64 columns wide and a
sprite at most 15 of 32 rows high. -/

namespace Sys2Proof.Machine

theorem wrapColumn_inj {a i j : Nat} (hi : i < 8) (hj : j < 8) (h : wrapColumn (a + i) = wrapColumn (a + j)) : i = j := by
  simp only [wrapColumn, Fin.mk.injEq, Config.gridW] at h
  omega

theorem wrapRow_inj {a i j : Nat} (hi : i < 32) (hj : j < 32) (h : wrapRow (a + i) = wrapRow (a + j)) : i = j := by
  simp only [wrapRow, Fin.mk.injEq, Config.gridH] at h
  omega

/-- A 1 bit among the first `n` of a sprite row lands on the cell. -/
def rowHits (cx cy r : Nat) (b : Byte) (n : Nat) (c' : Fin 64) (r' : Fin 32) : Prop :=
  ∃ col, col < n ∧ spriteBit b col = true ∧ c' = wrapColumn (cx + col) ∧ r' = wrapRow (cy + r)

/-- The first `n` pixels of a sprite row. -/
theorem drawPixels_spec (cx cy r : Nat) (b : Byte) (k : Grid × Bool) (n : Nat) (hn : n ≤ 8) :
    (∀ c' r', Grid.pixel ((List.range n).foldl (drawPixel cx cy r b) k).1 c' r' ≠ k.1.pixel c' r' ↔
      rowHits cx cy r b n c' r') ∧
    (((List.range n).foldl (drawPixel cx cy r b) k).2 = true ↔
      k.2 = true ∨ ∃ c' r', rowHits cx cy r b n c' r' ∧ k.1.pixel c' r' = true) := by
  induction n with
  | zero => simp [rowHits]
  | succ n ih =>
    obtain ⟨ih1, ih2⟩ := ih (by omega)
    rw [List.range_succ, List.foldl_append, List.foldl_cons, List.foldl_nil]
    generalize hk : (List.range n).foldl (drawPixel cx cy r b) k = k' at ih1 ih2 ⊢
    have hsucc (c' r') : rowHits cx cy r b (n + 1) c' r' ↔
        rowHits cx cy r b n c' r' ∨ (spriteBit b n = true ∧ c' = wrapColumn (cx + n) ∧ r' = wrapRow (cy + r)) := by
      constructor
      · rintro ⟨col, hc, h⟩
        by_cases he : col = n
        · exact .inr (he ▸ h)
        · exact .inl ⟨col, by omega, h⟩
      · rintro (⟨col, hc, h⟩ | h)
        · exact ⟨col, by omega, h⟩
        · exact ⟨n, by omega, h⟩
    have hnew : ¬ rowHits cx cy r b n (wrapColumn (cx + n)) (wrapRow (cy + r)) := by
      rintro ⟨col, hc, -, h, -⟩
      exact absurd (wrapColumn_inj (by omega) (by omega) h) (by omega)
    have hsame : k'.1.pixel (wrapColumn (cx + n)) (wrapRow (cy + r)) =
        k.1.pixel (wrapColumn (cx + n)) (wrapRow (cy + r)) := by
      by_contra h; exact hnew ((ih1 ..).1 h)
    refine ⟨fun c' r' => ?_, ?_⟩
    · rw [hsucc, ← ih1, drawPixel_pixel]
      by_cases hc : c' = wrapColumn (cx + n) ∧ r' = wrapRow (cy + r)
      · rw [hc.1, hc.2, hsame]
        cases spriteBit b n <;> cases k.1.pixel (wrapColumn (cx + n)) (wrapRow (cy + r)) <;> simp
      · have : ¬(spriteBit b n = true ∧ c' = wrapColumn (cx + n) ∧ r' = wrapRow (cy + r)) := fun h => hc h.2
        simp [hc]
    · unfold drawPixel
      cases hb : spriteBit b n with
      | false =>
        simp only [hb, Bool.false_eq_true, if_false, ih2, hsucc, false_and, or_false]
      | true =>
        simp only [hb, if_true, Bool.or_eq_true, ih2, hsucc, true_and, hsame]
        constructor
        · rintro ((h | ⟨c', r', h1, h2⟩) | h)
          · exact .inl h
          · exact .inr ⟨c', r', .inl h1, h2⟩
          · exact .inr ⟨_, _, .inr ⟨rfl, rfl⟩, h⟩
        · rintro (h | ⟨c', r', h1 | ⟨rfl, rfl⟩, h2⟩)
          · exact .inl (.inl h)
          · exact .inl (.inr ⟨c', r', h1, h2⟩)
          · exact .inr h2

/-- A 1 bit of the sprite rows `bs`, the first at row offset `r`, lands on the cell. -/
def spriteHits (cx cy r : Nat) (bs : List Byte) (c' : Fin 64) (r' : Fin 32) : Prop :=
  ∃ row, ∃ h : row < bs.length, rowHits cx cy (r + row) bs[row] 8 c' r'

theorem spriteHits_cons (cx cy r : Nat) (b : Byte) (bs : List Byte) (c' : Fin 64) (r' : Fin 32) :
    spriteHits cx cy r (b :: bs) c' r' ↔ rowHits cx cy r b 8 c' r' ∨ spriteHits cx cy (r + 1) bs c' r' := by
  constructor
  · rintro ⟨row, h, hr⟩
    cases row with
    | zero => exact .inl hr
    | succ row =>
      refine .inr ⟨row, by simpa using h, ?_⟩
      rw [show r + 1 + row = r + (row + 1) by omega]
      simpa using hr
  · rintro (hr | ⟨row, h, hr⟩)
    · exact ⟨0, by simp, hr⟩
    · refine ⟨row + 1, by simpa using h, ?_⟩
      rw [show r + (row + 1) = r + 1 + row by omega]
      simpa using hr

/-- All rows of a sprite. -/
theorem drawRows_spec (cx cy r : Nat) (bs : List Byte) (k : Grid × Bool) (hr : r + bs.length ≤ 32) :
    (∀ c' r', Grid.pixel (drawRows cx cy r bs k).1 c' r' ≠ k.1.pixel c' r' ↔ spriteHits cx cy r bs c' r') ∧
    ((drawRows cx cy r bs k).2 = true ↔ k.2 = true ∨ ∃ c' r', spriteHits cx cy r bs c' r' ∧ k.1.pixel c' r' = true) := by
  induction bs generalizing r k with
  | nil => simp [drawRows, spriteHits]
  | cons b bs ih =>
    simp only [List.length_cons] at hr
    obtain ⟨p1, p2⟩ := drawPixels_spec cx cy r b k 8 (Nat.le_refl 8)
    obtain ⟨ih1, ih2⟩ := ih (r + 1) (drawRow cx cy r b k) (by omega)
    have hd (c' r') : ¬(rowHits cx cy r b 8 c' r' ∧ spriteHits cx cy (r + 1) bs c' r') := by
      rintro ⟨⟨_, -, -, -, h1⟩, row, hrow, _, -, -, -, h2⟩
      rw [h1] at h2
      exact absurd (wrapRow_inj (by omega) (by omega) h2) (by omega)
    change ∀ c' r', Grid.pixel (drawRow cx cy r b k).1 c' r' ≠ _ ↔ _ at p1
    change (drawRow cx cy r b k).2 = true ↔ _ at p2
    rw [drawRows]
    refine ⟨fun c' r' => ?_, ?_⟩
    · rw [spriteHits_cons]
      by_cases h1 : rowHits cx cy r b 8 c' r'
      · have h2 : ¬ spriteHits cx cy (r + 1) bs c' r' := fun h => hd _ _ ⟨h1, h⟩
        have h3 := not_not.1 (mt (ih1 c' r').1 h2)
        rw [h3]
        simp [h1, (p1 c' r').2 h1]
      · have h3 := not_not.1 (mt (p1 c' r').1 h1)
        rw [← h3, ih1]
        simp [h1]
    · rw [ih2, p2, or_assoc]
      refine or_congr Iff.rfl ?_
      simp only [spriteHits_cons]
      constructor
      · rintro (⟨c', r', h1, h2⟩ | ⟨c', r', h1, h2⟩)
        · exact ⟨c', r', .inl h1, h2⟩
        · have h3 := not_not.1 (mt (p1 c' r').1 fun h => hd _ _ ⟨h, h1⟩)
          exact ⟨c', r', .inr h1, h3 ▸ h2⟩
      · rintro ⟨c', r', h1 | h1, h2⟩
        · exact .inl ⟨c', r', h1, h2⟩
        · have h3 := not_not.1 (mt (p1 c' r').1 fun h => hd _ _ ⟨h, h1⟩)
          exact .inr ⟨c', r', h1, h3 ▸ h2⟩

end Sys2Proof.Machine
end

