-- ==== Sys2Proof/Laws/Host.lean ====
section
/-! SUPPORT. What each host call answers, said once, and the first call of a run. -/

namespace Sys2Proof.Machine

theorem loadProgram_fits {bytes : List Byte} (h : 0x200 + bytes.length ≤ 4096) (s : State) :
    loadProgram bytes s = .ok (s.storeBytes 0x200 bytes) := by
  unfold loadProgram
  rw [if_neg (by simp only [Config.memSize, Config.programStart]; omega)]

theorem loadProgram_too_large {bytes : List Byte} (h : 4096 < 0x200 + bytes.length) (s : State) :
    loadProgram bytes s = .error .programTooLarge := by
  unfold loadProgram
  rw [if_pos (by simp only [Config.memSize, Config.programStart]; omega)]

/-- `load_program` stores the image, or leaves the state as it is (R99). -/
theorem hostCall_loadProgram (bytes : List Byte) (s : State) :
    (0x200 + bytes.length ≤ 4096 ∧ hostCall (.loadProgram bytes) s = .next (s.storeBytes 0x200 bytes, .ok)) ∨
    (4096 < 0x200 + bytes.length ∧ hostCall (.loadProgram bytes) s = .next (s, .err .programTooLarge)) := by
  by_cases h : 0x200 + bytes.length ≤ 4096
  · exact .inl ⟨h, by simp only [hostCall, loadProgram_fits h]⟩
  · exact .inr ⟨by omega, by simp only [hostCall, loadProgram_too_large (by omega : 4096 < 0x200 + bytes.length)]⟩

/-- The call of `step()` answers what the step answers, with its result. -/
theorem hostCall_step_next {s t : State} (h : step s = .next t) :
    hostCall .step s = .next (t, replyOf (stepReply t)) := by
  simp only [hostCall, h]

/-- A run's first call. -/
theorem runHost_cons {c : HostCall} {s t : State} {r : Reply} (cs : List HostCall) (h : hostCall c s = .next (t, r)) :
    runHost (c :: cs) s = runHost cs t := by
  rw [runHost, h]

/-- A run that completes completed its first call. -/
theorem runHost_cons_next {c : HostCall} {cs : List HostCall} {s u : State} (h : runHost (c :: cs) s = .next u) :
    ∃ t r, hostCall c s = .next (t, r) ∧ runHost cs t = .next u := by
  rw [runHost] at h
  split at h
  · exact ⟨_, _, ‹_›, h⟩
  · cases h
  · cases h

end Sys2Proof.Machine
end

