-- ==== Sys2Proof/Laws/PerInstr.lean ====
section
/-! SUPPORT. The family Encoding: every instruction is well-formed, and its word has the fixed bits of its row of
spec/opcode_table.json (its "match" under its "mask"). One lemma per constructor. -/

namespace Sys2Proof.Laws.Encoding

/-- The "mask" and "match" of each row (R75). -/
def maskMatch : Instr → Word × Word
  | .nop => (0xFFFF, 0x0000)
  | .cls => (0xFFFF, 0x00E0)
  | .ret => (0xFFFF, 0x00EE)
  | .jp _ => (0xF000, 0x1000)
  | .call _ => (0xF000, 0x2000)
  | .seImm _ _ => (0xF000, 0x3000)
  | .sneImm _ _ => (0xF000, 0x4000)
  | .seReg _ _ => (0xF00F, 0x5000)
  | .ldImm _ _ => (0xF000, 0x6000)
  | .addImm _ _ => (0xF000, 0x7000)
  | .ldReg _ _ => (0xF00F, 0x8000)
  | .orReg _ _ => (0xF00F, 0x8001)
  | .andReg _ _ => (0xF00F, 0x8002)
  | .xorReg _ _ => (0xF00F, 0x8003)
  | .addReg _ _ => (0xF00F, 0x8004)
  | .sub _ _ => (0xF00F, 0x8005)
  | .shr _ _ => (0xF00F, 0x8006)
  | .subn _ _ => (0xF00F, 0x8007)
  | .shl _ _ => (0xF00F, 0x800E)
  | .sneReg _ _ => (0xF00F, 0x9000)
  | .ldI _ => (0xF000, 0xA000)
  | .jpV0 _ => (0xF000, 0xB000)
  | .rnd _ _ => (0xF000, 0xC000)
  | .drw _ _ _ => (0xF000, 0xD000)
  | .skp _ => (0xF0FF, 0xE09E)
  | .sknp _ => (0xF0FF, 0xE0A1)
  | .ldVxDt _ => (0xF0FF, 0xF007)
  | .ldVxK _ => (0xF0FF, 0xF00A)
  | .ldDtVx _ => (0xF0FF, 0xF015)
  | .ldStVx _ => (0xF0FF, 0xF018)
  | .addI _ => (0xF0FF, 0xF01E)
  | .ldF _ => (0xF0FF, 0xF029)
  | .ldB _ => (0xF0FF, 0xF033)
  | .ldMemVx _ => (0xF0FF, 0xF055)
  | .ldVxMem _ => (0xF0FF, 0xF065)

/-- The instruction is well-formed and its word has its row's fixed bits. -/
def Statement (i : Instr) : Prop :=
  i.wf = true ∧ encode i &&& (maskMatch i).1 = (maskMatch i).2

/-! The fixed bits of each format. -/

theorem mask_packNNN (o : BitVec 4) (a : Addr) : packNNN o a &&& 0xF000 = o ++ (0 : BitVec 12) := by
  have h : (0xF000 : Word) = BitVec.allOnes 4 ++ (0 : BitVec 12) := by decide
  rw [h, packNNN, BitVec.and_append]; simp only [BitVec.and_allOnes]; simp

theorem mask_packXNN (o : BitVec 4) (x : Reg) (nn : Byte) : packXNN o x nn &&& 0xF000 = o ++ (0 : BitVec 12) := by
  have h : (0xF000 : Word) = BitVec.allOnes 4 ++ ((0 : BitVec 4) ++ (0 : BitVec 8)) := by decide
  rw [h, packXNN, BitVec.and_append, BitVec.and_append]; simp only [BitVec.and_allOnes]; simp

theorem mask_packX (o : BitVec 4) (x : Reg) (nn : Byte) :
    packXNN o x nn &&& 0xF0FF = o ++ ((0 : BitVec 4) ++ nn) := by
  have h : (0xF0FF : Word) = BitVec.allOnes 4 ++ ((0 : BitVec 4) ++ BitVec.allOnes 8) := by decide
  rw [h, packXNN, BitVec.and_append, BitVec.and_append]; simp only [BitVec.and_allOnes]; simp

theorem mask_packXY (o : BitVec 4) (x y : Reg) (n : BitVec 4) :
    packXYN o x y n &&& 0xF00F = o ++ ((0 : BitVec 4) ++ ((0 : BitVec 4) ++ n)) := by
  have h : (0xF00F : Word) = BitVec.allOnes 4 ++ ((0 : BitVec 4) ++ ((0 : BitVec 4) ++ BitVec.allOnes 4)) := by decide
  rw [h, packXYN, BitVec.and_append, BitVec.and_append, BitVec.and_append]; simp only [BitVec.and_allOnes]; simp

theorem mask_packXYN (o : BitVec 4) (x y : Reg) (n : BitVec 4) : packXYN o x y n &&& 0xF000 = o ++ (0 : BitVec 12) := by
  have h : (0xF000 : Word) = BitVec.allOnes 4 ++ ((0 : BitVec 4) ++ ((0 : BitVec 4) ++ (0 : BitVec 4))) := by decide
  rw [h, packXYN, BitVec.and_append, BitVec.and_append, BitVec.and_append]; simp only [BitVec.and_allOnes]; simp

/-! Operands of each format fit. -/

theorem admits_N : Format.admits .N [] = true := rfl

theorem admits_NNN (a : Addr) : Format.admits .NNN [a.toNat] = true := by
  simp only [Format.admits, Format.widths, fitAll, a.isLt, decide_true, Bool.and_true]

theorem admits_XNN (x : Reg) (nn : Byte) : Format.admits .XNN [x.val, nn.toNat] = true := by
  have := x.isLt
  simp only [Format.admits, Format.widths, fitAll, nn.isLt, decide_true, Bool.and_true, decide_eq_true_eq]; omega

theorem admits_XY (x y : Reg) : Format.admits .XY [x.val, y.val] = true := by
  have := x.isLt; have := y.isLt
  simp only [Format.admits, Format.widths, fitAll, Bool.and_true, Bool.and_eq_true, decide_eq_true_eq]; omega

theorem admits_XYN (x y n : Reg) : Format.admits .XYN [x.val, y.val, n.val] = true := by
  have := x.isLt; have := y.isLt; have := n.isLt
  simp only [Format.admits, Format.widths, fitAll, Bool.and_true, Bool.and_eq_true, decide_eq_true_eq]; omega

theorem admits_X (x : Reg) : Format.admits .X [x.val] = true := by
  have := x.isLt
  simp only [Format.admits, Format.widths, fitAll, Bool.and_true, decide_eq_true_eq]; omega

/-! The constructors. -/

theorem nop : Statement .nop := ⟨admits_N, by decide⟩
theorem cls : Statement .cls := ⟨admits_N, by decide⟩
theorem ret : Statement .ret := ⟨admits_N, by decide⟩
theorem jp (nnn : Addr) : Statement (.jp nnn) := ⟨admits_NNN nnn, mask_packNNN 0x1 nnn⟩
theorem call (nnn : Addr) : Statement (.call nnn) := ⟨admits_NNN nnn, mask_packNNN 0x2 nnn⟩
theorem seImm (x : Reg) (nn : Byte) : Statement (.seImm x nn) := ⟨admits_XNN x nn, mask_packXNN 0x3 x nn⟩
theorem sneImm (x : Reg) (nn : Byte) : Statement (.sneImm x nn) := ⟨admits_XNN x nn, mask_packXNN 0x4 x nn⟩
theorem seReg (x y : Reg) : Statement (.seReg x y) := ⟨admits_XY x y, mask_packXY 0x5 x y 0x0⟩
theorem ldImm (x : Reg) (nn : Byte) : Statement (.ldImm x nn) := ⟨admits_XNN x nn, mask_packXNN 0x6 x nn⟩
theorem addImm (x : Reg) (nn : Byte) : Statement (.addImm x nn) := ⟨admits_XNN x nn, mask_packXNN 0x7 x nn⟩
theorem ldReg (x y : Reg) : Statement (.ldReg x y) := ⟨admits_XY x y, mask_packXY 0x8 x y 0x0⟩
theorem orReg (x y : Reg) : Statement (.orReg x y) := ⟨admits_XY x y, mask_packXY 0x8 x y 0x1⟩
theorem andReg (x y : Reg) : Statement (.andReg x y) := ⟨admits_XY x y, mask_packXY 0x8 x y 0x2⟩
theorem xorReg (x y : Reg) : Statement (.xorReg x y) := ⟨admits_XY x y, mask_packXY 0x8 x y 0x3⟩
theorem addReg (x y : Reg) : Statement (.addReg x y) := ⟨admits_XY x y, mask_packXY 0x8 x y 0x4⟩
theorem sub (x y : Reg) : Statement (.sub x y) := ⟨admits_XY x y, mask_packXY 0x8 x y 0x5⟩
theorem shr (x y : Reg) : Statement (.shr x y) := ⟨admits_XY x y, mask_packXY 0x8 x y 0x6⟩
theorem subn (x y : Reg) : Statement (.subn x y) := ⟨admits_XY x y, mask_packXY 0x8 x y 0x7⟩
theorem shl (x y : Reg) : Statement (.shl x y) := ⟨admits_XY x y, mask_packXY 0x8 x y 0xE⟩
theorem sneReg (x y : Reg) : Statement (.sneReg x y) := ⟨admits_XY x y, mask_packXY 0x9 x y 0x0⟩
theorem ldI (nnn : Addr) : Statement (.ldI nnn) := ⟨admits_NNN nnn, mask_packNNN 0xA nnn⟩
theorem jpV0 (nnn : Addr) : Statement (.jpV0 nnn) := ⟨admits_NNN nnn, mask_packNNN 0xB nnn⟩
theorem rnd (x : Reg) (nn : Byte) : Statement (.rnd x nn) := ⟨admits_XNN x nn, mask_packXNN 0xC x nn⟩
theorem drw (x y n : Reg) : Statement (.drw x y n) := ⟨admits_XYN x y n, mask_packXYN 0xD x y (nib n)⟩
theorem skp (x : Reg) : Statement (.skp x) := ⟨admits_X x, mask_packX 0xE x 0x9E⟩
theorem sknp (x : Reg) : Statement (.sknp x) := ⟨admits_X x, mask_packX 0xE x 0xA1⟩
theorem ldVxDt (x : Reg) : Statement (.ldVxDt x) := ⟨admits_X x, mask_packX 0xF x 0x07⟩
theorem ldVxK (x : Reg) : Statement (.ldVxK x) := ⟨admits_X x, mask_packX 0xF x 0x0A⟩
theorem ldDtVx (x : Reg) : Statement (.ldDtVx x) := ⟨admits_X x, mask_packX 0xF x 0x15⟩
theorem ldStVx (x : Reg) : Statement (.ldStVx x) := ⟨admits_X x, mask_packX 0xF x 0x18⟩
theorem addI (x : Reg) : Statement (.addI x) := ⟨admits_X x, mask_packX 0xF x 0x1E⟩
theorem ldF (x : Reg) : Statement (.ldF x) := ⟨admits_X x, mask_packX 0xF x 0x29⟩
theorem ldB (x : Reg) : Statement (.ldB x) := ⟨admits_X x, mask_packX 0xF x 0x33⟩
theorem ldMemVx (x : Reg) : Statement (.ldMemVx x) := ⟨admits_X x, mask_packX 0xF x 0x55⟩
theorem ldVxMem (x : Reg) : Statement (.ldVxMem x) := ⟨admits_X x, mask_packX 0xF x 0x65⟩

end Sys2Proof.Laws.Encoding
end

