-- ==== Sys2Proof/Tests/Slice0.lean ====
section
/-! SUPPORT. The model's own tests. Every expected value is the spec's: the worked examples and vectors of
spec/95_test_vectors.md (L1-n, F-n, C-n, D-n, A-n, M-n, K-n), or the encodings of spec/30_encoding.md R75 written out bit by
bit. Then one witness per obligation that has hypotheses, at the boundary values of its clauses. -/

namespace Sys2Proof.Tests
open Sys2Proof.Machine

/-! ### Helpers -/

/-- The reset state with some registers set. -/
def regs (vs : List (Reg × Byte)) : State := vs.foldl (fun s p => s.writeV p.1 p.2) State.reset

/-- A state with the word `op` at its `pc`. -/
def place (s : State) (op : Nat) : State := s.withFetchWord 16 op

/-- A projection of the state one step later; none when the step is refused. -/
def after {α : Type} (s : State) (op : Nat) (f : State → α) : Option α :=
  match step (place s op) with
  | .next t => some (f t)
  | _ => none

/-- The refusal a step answers. -/
def refusal (s : State) (op : Nat) : Option Refusal :=
  match step (place s op) with
  | .refused r => some r
  | _ => none

/-- A register, the flag and `pc` after a step. -/
def vfpc (x : Reg) (s : State) : Byte × Byte × Word := (s.readV x, s.readV VF, s.pc)

/-- `n` bytes of memory. -/
def bytes (a n : Nat) (s : State) : List Byte := s.bytesFrom a n

/-- The pixels that are set, as (column, row). -/
def lit (s : State) : List (Nat × Nat) :=
  s.grid.toList.zipIdx.flatMap fun row => row.1.toList.zipIdx.filterMap fun p => if p.1 then some (p.2, row.2) else none

/-- A key vector with the given keys pressed. -/
def pressed (ks : List (Fin 16)) : Vector Bool 16 := Vector.ofFn fun k => ks.contains k

/-! ### WellFormed: each format refuses ill-formed operands (R71, R72) -/

theorem test_wf_format_n : Format.N.admits [] = true ∧ Format.N.admits [0] = false := by decide
theorem test_wf_format_nnn : Format.NNN.admits [4095] = true ∧ Format.NNN.admits [4096] = false ∧
    Format.NNN.admits [] = false := by decide
theorem test_wf_format_xnn : Format.XNN.admits [15, 255] = true ∧ Format.XNN.admits [16, 0] = false ∧
    Format.XNN.admits [0, 256] = false ∧ Format.XNN.admits [0] = false := by decide
theorem test_wf_format_xy : Format.XY.admits [15, 15] = true ∧ Format.XY.admits [16, 0] = false ∧
    Format.XY.admits [0, 16] = false ∧ Format.XY.admits [0, 0, 0] = false := by decide
theorem test_wf_format_xyn : Format.XYN.admits [15, 15, 15] = true ∧ Format.XYN.admits [16, 0, 0] = false ∧
    Format.XYN.admits [0, 16, 0] = false ∧ Format.XYN.admits [0, 0, 16] = false := by decide
theorem test_wf_format_x : Format.X.admits [15] = true ∧ Format.X.admits [16] = false ∧ Format.X.admits [0, 0] = false := by
  decide

/-! ### Decoding: every constructor, its word written out from its pattern (R75) -/

theorem test_decode_group0 : decodeWord 0b0000000000000000 = .ok .nop ∧ decodeWord 0b0000000011100000 = .ok .cls ∧
    decodeWord 0b0000000011101110 = .ok .ret := ⟨rfl, rfl, rfl⟩
theorem test_decode_addresses : decodeWord 0b0001101010111100 = .ok (.jp 0xABC) ∧
    decodeWord 0b0010101010111100 = .ok (.call 0xABC) ∧ decodeWord 0b1010101010111100 = .ok (.ldI 0xABC) ∧
    decodeWord 0b1011101010111100 = .ok (.jpV0 0xABC) := ⟨rfl, rfl, rfl, rfl⟩
theorem test_decode_immediates : decodeWord 0b0011101001011100 = .ok (.seImm 10 0x5C) ∧
    decodeWord 0b0100101001011100 = .ok (.sneImm 10 0x5C) ∧ decodeWord 0b0110101001011100 = .ok (.ldImm 10 0x5C) ∧
    decodeWord 0b0111101001011100 = .ok (.addImm 10 0x5C) ∧ decodeWord 0b1100101001011100 = .ok (.rnd 10 0x5C) :=
  ⟨rfl, rfl, rfl, rfl, rfl⟩
theorem test_decode_register_skips : decodeWord 0b0101101000110000 = .ok (.seReg 10 3) ∧
    decodeWord 0b1001101000110000 = .ok (.sneReg 10 3) := ⟨rfl, rfl⟩
theorem test_decode_group8 : decodeWord 0b1000101000110000 = .ok (.ldReg 10 3) ∧
    decodeWord 0b1000101000110001 = .ok (.orReg 10 3) ∧ decodeWord 0b1000101000110010 = .ok (.andReg 10 3) ∧
    decodeWord 0b1000101000110011 = .ok (.xorReg 10 3) ∧ decodeWord 0b1000101000110100 = .ok (.addReg 10 3) ∧
    decodeWord 0b1000101000110101 = .ok (.sub 10 3) ∧ decodeWord 0b1000101000110110 = .ok (.shr 10 3) ∧
    decodeWord 0b1000101000110111 = .ok (.subn 10 3) ∧ decodeWord 0b1000101000111110 = .ok (.shl 10 3) :=
  ⟨rfl, rfl, rfl, rfl, rfl, rfl, rfl, rfl, rfl⟩
theorem test_decode_draw : decodeWord 0b1101101000110101 = .ok (.drw 10 3 5) := rfl
theorem test_decode_keys : decodeWord 0b1110101010011110 = .ok (.skp 10) ∧ decodeWord 0b1110101010100001 = .ok (.sknp 10) :=
  ⟨rfl, rfl⟩
theorem test_decode_groupF : decodeWord 0b1111101000000111 = .ok (.ldVxDt 10) ∧
    decodeWord 0b1111101000001010 = .ok (.ldVxK 10) ∧ decodeWord 0b1111101000010101 = .ok (.ldDtVx 10) ∧
    decodeWord 0b1111101000011000 = .ok (.ldStVx 10) ∧ decodeWord 0b1111101000011110 = .ok (.addI 10) ∧
    decodeWord 0b1111101000101001 = .ok (.ldF 10) ∧ decodeWord 0b1111101000110011 = .ok (.ldB 10) ∧
    decodeWord 0b1111101001010101 = .ok (.ldMemVx 10) ∧ decodeWord 0b1111101001100101 = .ok (.ldVxMem 10) :=
  ⟨rfl, rfl, rfl, rfl, rfl, rfl, rfl, rfl, rfl⟩
/-- L1-7, F-6 to F-9, C-11, C-12. -/
theorem test_decode_rejects : [0x5001, 0x8008, 0xE000, 0xF000, 0x00E1, 0x5011, 0x9011].all
    (fun op => decodeRow op == none) = true := by decide
/-- The first byte is the high byte (R54), and the rest of the list comes back. -/
theorem test_decode_bytes : decode [0x81, 0x26, 0xFF] = .ok (.shr 1 2, [0xFF]) ∧ decode [0x81] = .error .truncated :=
  ⟨rfl, rfl⟩
theorem test_decodeTableWord : decodeTableWord 16 0x8126 = some (.shr 1 2) ∧ decodeTableWord 16 0x5001 = none ∧
    decodeTableWord 8 0x00 = some .nop := by decide

/-! ### One step per instruction (spec/95_test_vectors.md) -/

/-- C-1, C-2. -/
theorem test_nop_jp : after State.reset 0x0000 (·.pc) = some 0x202 ∧ after State.reset 0x1ABC (·.pc) = some 0xABC := by
  decide +kernel
/-- L1-2. -/
theorem test_call : after State.reset 0x2300 (fun s => (s.pc, s.sp, s.stack[0])) = some (0x300, 1, 0x202) := by decide +kernel
/-- L1-2, C-4. -/
theorem test_ret : after { State.reset with pc := 0x300, sp := 1, stack := State.reset.stack.set 0 0x202 } 0x00EE
      (fun s => (s.pc, s.sp, s.stack[0])) = some (0x202, 0, 0x202) ∧
    after State.reset 0x00EE (fun s => (s.pc, s.sp, s.mode)) = some (0x202, 0, .faulted .stackUnderflow) := by decide +kernel
/-- L1-5: the 17th call. -/
theorem test_call_overflow : after { State.reset with sp := 16 } 0x2200 (fun s => (s.pc, s.sp, s.mode)) =
    some (0x202, 16, .faulted .stackOverflow) := by decide +kernel
/-- C-5, C-6, C-16. -/
theorem test_seImm : after (regs [(0, 0x12)]) 0x3012 (·.pc) = some 0x204 ∧ after (regs [(0, 0x13)]) 0x3012 (·.pc) = some 0x202 ∧
    after (regs [(15, 1)]) 0x3F01 (·.pc) = some 0x204 := by decide +kernel
/-- C-7, C-8. -/
theorem test_sneImm : after (regs [(0, 0x12)]) 0x4012 (·.pc) = some 0x202 ∧
    after (regs [(0, 0x13)]) 0x4012 (·.pc) = some 0x204 := by decide +kernel
/-- C-9, C-10. -/
theorem test_register_skips : after (regs [(0, 7), (1, 7)]) 0x5010 (·.pc) = some 0x204 ∧
    after (regs [(0, 7), (1, 8)]) 0x9010 (·.pc) = some 0x204 := by decide +kernel
/-- C-13, C-14. -/
theorem test_jpV0 : after (regs [(0, 0x10)]) 0xB300 (·.pc) = some 0x310 ∧
    after (regs [(0, 0xFF)]) 0xBFFF (·.pc) = some 0x10FE := by decide +kernel
/-- C-15. -/
theorem test_skip_past_the_end : after { regs [(0, 0x12)] with pc := 0xFFE } 0x3012 (·.pc) = some 0x1002 := by decide +kernel

/-- A-1, A-2, A-3. -/
theorem test_immediates : after State.reset 0x6A5C (·.readV 10) = some 0x5C ∧
    after (regs [(3, 0xFF), (15, 7)]) 0x7302 (vfpc 3) = some (1, 7, 0x202) ∧
    after (regs [(15, 1)]) 0x7FFF (·.readV 15) = some 0 := by decide +kernel
/-- A-4 to A-7. -/
theorem test_copy_and_logic : after (regs [(1, 0x33)]) 0x8010 (·.readV 0) = some 0x33 ∧
    after (regs [(0, 0x0F), (1, 0xF0), (15, 0x55)]) 0x8011 (vfpc 0) = some (0xFF, 0x55, 0x202) ∧
    after (regs [(0, 0xF0), (1, 0x0F)]) 0x8012 (·.readV 0) = some 0 ∧
    after (regs [(0, 0xFF), (1, 0x0F)]) 0x8013 (·.readV 0) = some 0xF0 := by decide +kernel
/-- L1-3, A-9. -/
theorem test_addReg : after (regs [(0, 0xFF), (1, 1)]) 0x8014 (vfpc 0) = some (0, 1, 0x202) ∧
    after (regs [(15, 0xFF), (1, 1)]) 0x8F14 (·.readV 15) = some 1 := by decide +kernel
/-- L1-3, A-10, A-12. -/
theorem test_sub : after (regs [(0, 1), (1, 2)]) 0x8015 (vfpc 0) = some (0xFF, 0, 0x202) ∧
    after (regs [(0, 5), (1, 5)]) 0x8015 (vfpc 0) = some (0, 1, 0x202) ∧
    after (regs [(15, 3), (1, 5)]) 0x8F15 (·.readV 15) = some 0 := by decide +kernel
/-- A-13, A-14. -/
theorem test_shr : after (regs [(0, 0x10), (1, 0x81)]) 0x8016 (vfpc 0) = some (0x40, 1, 0x202) ∧
    after (regs [(1, 3)]) 0x8F16 (·.readV 15) = some 1 := by decide +kernel
/-- A-16, A-18. -/
theorem test_subn : after (regs [(0, 1), (1, 0)]) 0x8017 (vfpc 0) = some (0xFF, 0, 0x202) ∧
    after (regs [(15, 5), (1, 1)]) 0x8F17 (·.readV 15) = some 0 := by decide +kernel
/-- A-19, A-20. -/
theorem test_shl : after (regs [(1, 0x81)]) 0x801E (vfpc 0) = some (2, 1, 0x202) ∧
    after (regs [(1, 0x40)]) 0x8F1E (·.readV 15) = some 0 := by decide +kernel
/-- A-23: any draw under the mask 0. -/
theorem test_rnd_masked : (regs [(0, 0xFF)]).readV 0 = 0xFF ∧
    ∃ t, step (place (regs [(0, 0xFF)]) 0xC000) = .next t ∧ t.readV 0 = 0 :=
  ⟨by decide, _, rfl, (BitVec.zero_and (x := Config.draw8 0))⟩

/-- D-1. -/
theorem test_cls : after { regs [(15, 9)] with grid := State.reset.grid.toggle 5 7 } 0x00E0 (fun s => (lit s, s.readV 15)) =
    some ([], 9) := by decide +kernel
/-- D-4, D-5: the coordinates wrap; a sprite over both edges. -/
theorem test_drw : after (regs [(0, 0x41), (1, 0x21)]) 0xD011 (fun s => (lit s, s.readV 15)) =
      some ([(1, 1), (2, 1), (3, 1), (4, 1)], 0) ∧
    after (regs [(2, 0x3E), (3, 0x1E)]) 0xD235 (fun s => (lit s, s.readV 15)) =
      some ([(1, 0), (62, 0), (1, 1), (62, 1), (0, 2), (1, 2), (62, 2), (63, 2), (0, 30), (1, 30), (62, 30), (63, 30),
        (1, 31), (62, 31)], 0) := by
  decide +kernel
/-- D-6, D-7, D-9 (I is 0 after reset, as its first word sets it). -/
theorem test_drw_corners : after (regs [(15, 1)]) 0xD010 (·.readV 15) = some 0 ∧
    after { State.reset with i := 0xFFD } 0xD015 (fun s => (s.pc, s.mode)) = some (0x202, .faulted (.outOfBounds 0x1000)) ∧
    after (regs [(15, 3)]) 0xDF01 (fun s => (lit s, s.readV 15)) = some ([(3, 0), (4, 0), (5, 0), (6, 0)], 0) := by
  decide +kernel

/-- M-1, M-2. -/
theorem test_index : after State.reset 0xA300 (·.i) = some 0x300 ∧
    after { regs [(0, 2)] with i := 0xFFFF } 0xF01E (fun s => (s.i, s.readV 15)) = some (1, 0) := by decide +kernel
/-- M-3 to M-5: with the parameter. -/
theorem test_addI_with_flag :
    let c : Config := { defaultConfig with fx1eSetsVF := true }
    after { regs [(0, 2)] with i := 0xFFFF, config := c } 0xF01E (fun s => (s.i, s.readV 15)) = some (1, 1) ∧
    after { regs [(0, 1)] with i := 0x0FFF, config := c } 0xF01E (fun s => (s.i, s.readV 15)) = some (0x1000, 1) ∧
    after { regs [(0, 1)] with i := 0x0FFE, config := c } 0xF01E (fun s => (s.i, s.readV 15)) = some (0x0FFF, 0) := by decide +kernel
/-- M-6 to M-8. -/
theorem test_ldF : after (regs [(2, 0x0A)]) 0xF229 (·.i) = some 0x032 ∧ after (regs [(0, 0x0F)]) 0xF029 (·.i) = some 0x04B ∧
    refusal (regs [(0, 0x10)]) 0xF029 = some (.fontDigitRange 0x10) := by decide +kernel
/-- M-9, M-14, M-15, M-16. -/
theorem test_ldB : after { regs [(0, 0xFE)] with i := 0x300 } 0xF033 (bytes 0x300 3) = some [2, 5, 4] ∧
    after { regs [(0, 0xFF)] with i := 0xFFD } 0xF033 (bytes 0xFFD 3) = some [2, 5, 5] ∧
    after { regs [(0, 9)] with i := 0xFFE } 0xF033 (fun s => (bytes 0xFFE 2 s, s.mode)) =
      some ([0, 0], .faulted (.outOfBounds 0x1000)) ∧
    refusal { regs [(0, 1)] with i := 0x04F } 0xF033 = some (.fontRegionWrite 0x04F) := by decide +kernel
/-- M-17, M-18, M-19, M-20. -/
theorem test_ldMemVx : after { regs [(0, 1), (1, 2), (2, 3)] with i := 0x400 } 0xF255 (fun s => (bytes 0x400 4 s, s.i)) =
      some ([1, 2, 3, 0], 0x400) ∧
    after { regs [(0, 1), (1, 2)] with i := 0xFFE } 0xF155 (bytes 0xFFE 2) = some [1, 2] ∧
    after { regs [(0, 1)] with i := 0xFFE } 0xF255 (fun s => (bytes 0xFFE 2 s, s.mode)) =
      some ([0, 0], .faulted (.outOfBounds 0x1000)) ∧
    refusal { State.reset with i := 0x04F } 0xF055 = some (.fontRegionWrite 0x04F) := by decide +kernel
/-- M-23, M-24's second word: the glyph A of the default font. -/
theorem test_ldVxMem : after { State.reset with i := 0xFFFF } 0xF065 (·.mode) = some (.faulted (.outOfBounds 0xFFFF)) ∧
    after { State.reset with i := 0x032 } 0xF465 (fun s => s.v.toList.take 6) =
      some [0xF0, 0x90, 0xF0, 0x90, 0x90, 0x00] := by decide +kernel

/-- K-1, K-2, K-4. -/
theorem test_skp : after { regs [(1, 7)] with key := pressed [7] } 0xE19E (·.pc) = some 0x204 ∧
    after (regs [(1, 7)]) 0xE19E (·.pc) = some 0x202 ∧
    refusal (regs [(0, 0x10)]) 0xE09E = some (.keyIndexRange 0x10) := by decide +kernel
/-- K-3. -/
theorem test_sknp : after (regs [(1, 7)]) 0xE1A1 (·.pc) = some 0x204 ∧
    after { regs [(1, 7)] with key := pressed [7] } 0xE1A1 (·.pc) = some 0x202 := by decide +kernel
/-- K-5, K-8, K-9. -/
theorem test_timers : after { State.reset with dt := 0x3C } 0xF507 (fun s => (s.readV 5, s.dt)) = some (0x3C, 0x3C) ∧
    after (regs [(4, 0x3C)]) 0xF415 (fun s => (s.dt, s.st)) = some (0x3C, 0) ∧
    after (regs [(4, 2)]) 0xF418 (fun s => (s.st, s.dt, soundActive s)) = some (2, 0, true) := by decide +kernel
/-- K-6: the wait, then the lowest key. -/
theorem test_ldVxK : after { State.reset with key := pressed [5, 12] } 0xF30A (fun s => (s.mode, s.readV 3, s.pc)) =
      some (.awaitingKey 3, 0, 0x202) ∧
    (pollKeys 3 { State.reset with key := pressed [5, 12], mode := .awaitingKey 3 }).readV 3 = 5 := by decide +kernel

/-! ### The loop and the host -/

/-- F-4: an odd fetch. -/
theorem test_odd_fetch : after { State.reset with pc := 0x201 } 0x6012 (vfpc 0) = some (0x12, 0, 0x203) := by decide +kernel
/-- L1-7. -/
theorem test_invalid_opcode : after State.reset 0x5001 (fun s => (s.pc, s.mode, stepReply s)) =
    some (0x202, .faulted (.invalidOpcode 0x5001), .error (.invalidOpcode 0x5001)) := rfl
/-- F-2, F-3: fetches past the end. -/
theorem test_fetch_past_the_end : fetchWord { State.reset with pc := 0xFFF } = .error (.outOfBounds 0x1000) ∧
    fetchWord { State.reset with pc := 0x10FE } = .error (.outOfBounds 0x10FE) := ⟨rfl, rfl⟩
/-- K-10, K-9. -/
theorem test_tick : (tick { State.reset with dt := 1, st := 2 }).dt = 0 ∧
    (tick { State.reset with dt := 1, st := 2 }).st = 1 ∧ (tick State.reset).dt = 0 := by decide +kernel
/-- F-13, L1-6. -/
theorem test_host_in_other_modes : (setKey 5 true { State.reset with mode := .awaitingKey 3 }).key[5] = true ∧
    (setKey 5 true { State.reset with mode := .awaitingKey 3 }).mode = .awaitingKey 3 ∧
    resetMachine { regs [(3, 1)] with mode := .faulted .stackOverflow, key := pressed [1], pc := 0xABC } = State.reset := by
  decide +kernel
/-- The font after reset (R60). -/
theorem test_font_after_reset : bytes 0x04B 6 State.reset = [0xF0, 0x80, 0xF0, 0x80, 0x80, 0x00] := by decide +kernel
/-- Writing what an unlisted address reads as unlists it. -/
theorem test_memory_canonical : ((State.reset.storeByte 0x300 7).storeByte 0x2FF 1).mem = [(0x2FF, 1), (0x300, 7)] ∧
    ((State.reset.storeByte 0x300 7).storeByte 0x300 0).mem = [] := by decide +kernel

/-! ### Witnesses: for each obligation with hypotheses, a state and operands that meet them, at the clauses' boundary values -/

/-- The reset state with the word `op` at 0x200. -/
def at200 (op : Nat) : State := place State.reset op

theorem witness_DecodedWordIsTheEncoding : decodeWord 0xFF65 = .ok (.ldVxMem 15) := rfl

theorem witness_StepRunsTheDecodedInstruction :
    ((at200 0x8F14).mode = .running ∧ FetchesWord (at200 0x8F14) 0x8F14 ∧ decodeWord 0x8F14 = .ok (.addReg 15 1)) ∧
    FetchesWord (place { State.reset with pc := 0xFFE } 0x1200) 0x1200 :=
  ⟨⟨rfl, ⟨by decide, rfl, rfl⟩, rfl⟩, by decide, rfl, rfl⟩

theorem witness_FetchOutsideMemory : State.reset.mode = .running ∧
    4096 ≤ { State.reset with pc := 0xFFF }.pc.toNat + 1 ∧ 4096 ≤ { State.reset with pc := 0x1000 }.pc.toNat := by decide

theorem witness_UnknownWord : (at200 0x5001).mode = .running ∧ FetchesWord (at200 0x5001) 0x5001 ∧
    ∀ i, decodeWord 0x5001 ≠ .ok i := ⟨rfl, ⟨by decide, rfl, rfl⟩, fun _ => nofun⟩

theorem witness_OnlyResetLeavesFaulted : { State.reset with mode := .faulted .stackUnderflow }.mode = .faulted .stackUnderflow ∧
    HostCall.reset ∉ [HostCall.step, .tick, .setKey 15 true, .loadProgram [0x12, 0x00], .pixelGrid, .soundActive] := by decide

theorem witness_KeyWaitEnds : { State.reset with mode := .awaitingKey 15 }.mode = .awaitingKey 15 ∧
    (∀ k : Fin 16, State.reset.key.get k = false) ∧
    ((pressed [15]).get 15 = true ∧ ∀ j : Fin 16, j < 15 → (pressed [15]).get j = false) ∧
    ((pressed [0, 15]).get 0 = true ∧ ∀ j : Fin 16, j < 0 → (pressed [0, 15]).get j = false) := by decide

theorem witness_KeyWaitLasts : { State.reset with mode := .awaitingKey 3 }.mode = .awaitingKey 3 ∧
    (∀ k : Fin 16, State.reset.key.get k = false) ∧
    ∀ c ∈ [HostCall.step, .tick, .step], c = .step ∨ c = .tick := by decide

/-- A running step that halts: for ErrorsLeaveAllButPcAndModeUnchanged and EachErrorComesFromItsOwnInstructions, one state per
error, and one for each way to OutOfBounds. -/
def haltsOn (s : State) (e : Fault) : Prop := s.mode = .running ∧ ∃ t, step s = .next t ∧ t.mode = .faulted e

theorem witness_errors : haltsOn { State.reset with pc := 0xFFF } (.outOfBounds 0x1000) ∧
    haltsOn (place { State.reset with i := 0xFFD } 0xD015) (.outOfBounds 0x1000) ∧
    haltsOn (place { State.reset with i := 0xFFF } 0xF033) (.outOfBounds 0x1000) ∧
    haltsOn (place { State.reset with i := 0xFFF } 0xF155) (.outOfBounds 0x1000) ∧
    haltsOn (place { State.reset with i := 0xFFFF } 0xF065) (.outOfBounds 0xFFFF) ∧
    haltsOn (place { State.reset with sp := 16 } 0x2200) .stackOverflow ∧
    haltsOn (at200 0x00EE) .stackUnderflow ∧ haltsOn (at200 0x5001) (.invalidOpcode 0x5001) :=
  ⟨⟨rfl, _, rfl, rfl⟩, ⟨rfl, _, rfl, rfl⟩, ⟨rfl, _, rfl, rfl⟩, ⟨rfl, _, rfl, rfl⟩, ⟨rfl, _, rfl, rfl⟩, ⟨rfl, _, rfl, rfl⟩,
    ⟨rfl, _, rfl, rfl⟩, ⟨rfl, _, rfl, rfl⟩⟩

theorem witness_RefusedSteps : step (at200 0xF033) = .refused (.fontRegionWrite 0) ∧
    step (place { State.reset with i := 0x04F } 0xFF55) = .refused (.fontRegionWrite 0x04F) ∧
    step (place (regs [(0, 16)]) 0xE09E) = .refused (.keyIndexRange 16) ∧
    step (place (regs [(0, 255)]) 0xE0A1) = .refused (.keyIndexRange 255) ∧
    step (place (regs [(0, 16)]) 0xF029) = .refused (.fontDigitRange 16) := ⟨rfl, rfl, rfl, rfl, rfl⟩

theorem witness_LoadProgram : 0x200 + (List.replicate 3584 (1 : Byte)).length ≤ 4096 ∧
    4096 < 0x200 + (List.replicate 3585 (1 : Byte)).length := by
  simp only [List.length_replicate]; omega

theorem witness_JumpSetsThePc : State.reset.mode = .running ∧ (0xFFF : Addr) = 0xFFF ∧
    FetchesWord (at200 0x1200) (encode (.jp 0x200)) ∧ (at200 0x1200).pc.toNat = (0x200 : Addr).toNat :=
  ⟨rfl, rfl, ⟨by decide, rfl, rfl⟩, rfl⟩

theorem witness_JumpWithOffset : (regs [(0, 0xFF)]).mode = .running ∧
    (∃ t, exec (.jpV0 0xFFF) (regs [(0, 0)]) = .next t ∧ t.pc.toNat = 0xFFF) ∧
    ∃ t, exec (.jpV0 0xFFF) (regs [(0, 0xFF)]) = .next t ∧ t.pc.toNat = 0x10FE := ⟨rfl, ⟨_, rfl, rfl⟩, _, rfl, rfl⟩

theorem witness_CallAndReturn : State.reset.sp.val < 16 ∧ { State.reset with sp := 15 }.sp.val < 16 ∧
    { State.reset with sp := 1 }.sp.val ≠ 0 ∧ { State.reset with sp := 16 }.sp.val ≠ 0 ∧
    { State.reset with sp := 16 }.sp = 16 ∧ State.reset.sp = 0 := by decide

theorem witness_ReturnUndoesCall : ∃ t, State.reset.sp.val < 16 ∧ exec (.call 0x300) State.reset = .next t ∧
    { t with pc := 0x302 }.stack = t.stack ∧ { t with pc := 0x302 }.sp = t.sp := ⟨_, by decide, rfl, rfl, rfl⟩

theorem witness_Skips : (1 : Reg) ≠ 0 ∧ (15 : Reg) ≠ 0 := by decide

theorem witness_ClearScreen : ∀ c r, State.reset.grid.pixel c r = false := fun c r => by
  simp [Grid.pixel, State.reset, State.resetWith, Vector.get_eq_getElem]

theorem witness_Draw : ((0 : Reg).val = 0 ∨ { State.reset with i := 0xFFFF }.i.toNat + (0 : Reg).val ≤ 4096) ∧
    ((15 : Reg).val = 0 ∨ { State.reset with i := 0xFF1 }.i.toNat + (15 : Reg).val ≤ 4096) := by decide

theorem witness_DrawingTwice : ∃ t, ((5 : Reg).val = 0 ∨ State.reset.i.toNat + (5 : Reg).val ≤ 4096) ∧
    exec (.drw 0 0 5) State.reset = .next t ∧ t.i = State.reset.i ∧ t.readV 0 = State.reset.readV 0 ∧
    SameMemory State.reset t := ⟨_, .inr (by decide), rfl, rfl, rfl, fun _ => rfl⟩

theorem witness_FontPointer : ((regs [(0, 0)]).readV 0).toNat < 16 ∧ ((regs [(0, 15)]).readV 0).toNat < 16 ∧
    FontIntact State.reset := ⟨by decide, by decide, fun _ _ => rfl⟩

theorem witness_stores : (0x050 ≤ { State.reset with i := 0x050 }.i.toNat ∧ { State.reset with i := 0x050 }.i.toNat + 3 ≤ 4096) ∧
    (0x050 ≤ { State.reset with i := 0xFFD }.i.toNat ∧ { State.reset with i := 0xFFD }.i.toNat + 3 ≤ 4096) ∧
    (0x050 ≤ { State.reset with i := 0xFF0 }.i.toNat ∧ { State.reset with i := 0xFF0 }.i.toNat + (15 : Reg).val + 1 ≤ 4096) ∧
    State.reset.i.toNat + (15 : Reg).val + 1 ≤ 4096 := by decide

theorem witness_AccessesPastMemory : ((1 : Reg).val ≠ 0 ∧ 4096 < { State.reset with i := 0x1000 }.i.toNat + (1 : Reg).val) ∧
    (0x050 ≤ { State.reset with i := 0xFFE }.i.toNat ∧ 4096 < { State.reset with i := 0xFFE }.i.toNat + 3) ∧
    4096 < { State.reset with i := 0x1000 }.i.toNat + (0 : Reg).val + 1 ∧
    4096 < { State.reset with i := 0xFF1 }.i.toNat + (15 : Reg).val + 1 := by decide

theorem witness_LoadAfterStore : ∃ t, (0x050 ≤ { State.reset with i := 0xFF0 }.i.toNat ∧
    { State.reset with i := 0xFF0 }.i.toNat + (15 : Reg).val + 1 ≤ 4096) ∧
    exec (.ldMemVx 15) { State.reset with i := 0xFF0 } = .next t ∧ t.i = t.i ∧ SameMemory t t :=
  ⟨_, by decide, rfl, rfl, fun _ => rfl⟩

theorem witness_FetchSeesStoredBytes : ∃ t u : State, 0 < (15 : Reg).val ∧ 14 < (15 : Reg).val ∧
    exec (.ldMemVx 15) { State.reset with i := 0x300 } = .next t ∧ SameMemory t u ∧ u.pc.toNat = 0x300 + 14 :=
  ⟨_, { { State.reset with i := 0x300 } with pc := 0x30E }, by decide, by decide, rfl, fun _ => rfl, rfl⟩

theorem witness_KeySkips : ((regs [(0, 0)]).readV 0).toNat < 16 ∧ ((regs [(0, 15)]).readV 0).toNat < 16 := by decide

theorem witness_WaitForKey : (at200 0xFF0A).mode = .running ∧ FetchesWord (at200 0xFF0A) (encode (.ldVxK 15)) :=
  ⟨rfl, by decide, rfl, rfl⟩

/-- The frames: each of their guards holds of an instruction that completes. -/
theorem witness_frames : (∃ t, exec (.addReg 0 1) State.reset = .next t ∧ writesReg (.addReg 0 1) 2 = false) ∧
    (∃ t, exec (.ldMemVx 1) { State.reset with i := 0x300 } = .next t ∧ storedBytes (.ldMemVx 1) = 2) ∧
    (∃ t, exec (.drw 0 1 5) State.reset = .next t ∧ writesPc (.drw 0 1 5) = false) ∧
    (∃ t, exec (.jp 0x300) State.reset = .next t ∧ Instr.jp 0x300 ≠ .ret ∧ ∀ nnn, Instr.jp 0x300 ≠ .call nnn) :=
  ⟨⟨_, rfl, by decide⟩, ⟨_, rfl, rfl⟩, ⟨_, rfl, rfl⟩, _, rfl, nofun, fun _ => nofun⟩

theorem witness_KeysStayAndMode : (∃ t, step (at200 0xF30A) = .next t ∧ t.mode = .awaitingKey 3) ∧
    (∃ t, step { State.reset with key := pressed [5], mode := .awaitingKey 3 } = .next t ∧ t.mode = .running) ∧
    ∃ t, step (at200 0x5001) = .next t ∧ t.mode = .faulted (.invalidOpcode 0x5001) :=
  ⟨⟨_, rfl, rfl⟩, ⟨_, rfl, by decide⟩, _, rfl, rfl⟩

theorem reset_inv : StateInv State.reset :=
  ⟨rfl, fun _ _ => rfl, ⟨by decide, fun k hk => absurd hk (by simp [State.reset, State.resetWith])⟩, by decide⟩

theorem witness_EveryStepKeepsTheInvariant : StateInv State.reset ∧ ∃ t, step State.reset = .next t :=
  ⟨reset_inv, _, rfl⟩

theorem witness_EveryHostRun : (∃ t r, hostCall (.loadProgram [0x12, 0x00]) State.reset = .next (t, r)) ∧
    ∃ t, runHost [.loadProgram [0x12, 0x00], .step, .tick, .step] (State.resetWith defaultConfig) = .next t :=
  ⟨⟨_, _, rfl⟩, _, rfl⟩

theorem witness_SafeRuns : (∀ e, State.reset.mode ≠ .faulted e) ∧ ∃ t, SafeRun [.step, .tick, .reset] State.reset t :=
  ⟨fun _ => nofun, _, _, _, rfl, rfl, _, _, rfl, rfl, _, _, rfl, rfl, rfl⟩

end Sys2Proof.Tests
end

section
/-! PROOFS. The family Encoding (spec/30_encoding.md): a running step on a word of no row. -/

namespace Sys2Proof.Machine

/-- A word that decodes to no instruction is a word of no row (R76). -/
theorem decodeRow_eq_none_iff {op : Word} : decodeRow op = none ↔ ∀ i, decodeWord op ≠ .ok i := by
  simp only [Option.eq_none_iff_forall_ne_some, Ne, decodeWord_ok]

/-- A running step that fetches a word of no row halts after the fetch's advance (R76, R91). -/
theorem step_of_decodeRow_none {s : State} {op : Word} (hrun : s.mode = .running) (hfetch : FetchesWord s op)
    (hrow : decodeRow op = none) : step s = .next { s.advance with mode := .faulted (.invalidOpcode op) } := by
  rw [step_running hrun]
  simp only [stepRunning, fetchWord_of_fetches hfetch, runWord, hrow, raiseError]

/-- A call of `step()` whose step ends in mode Faulted(e) returns Err(e) (R94). -/
theorem hostCall_step_of_faulted {s t : State} {e : Fault} (hstep : step s = .next t) (hmode : t.mode = .faulted e) :
    hostCall .step s = .next (t, .err e) := by
  rw [hostCall_step_next hstep]
  simp only [stepReply, hmode, replyOf]

/-- Settles O7: the fetch advances `pc`, the decoder has no row for the word, and the raised error is the call's reply. -/
theorem unknownWordRaisesInvalidOpcode : Obligations.UnknownWordRaisesInvalidOpcode := by
  unfold Obligations.UnknownWordRaisesInvalidOpcode
  intro s op hrun hfetch hunknown
  have hstep := step_of_decodeRow_none hrun hfetch (decodeRow_eq_none_iff.mpr hunknown)
  exact ⟨_, hstep, rfl, hostCall_step_of_faulted hstep rfl⟩

end Sys2Proof.Machine
end


section
/-! PROOFS. The family Interpreter loop (spec/40_interpreter_loop.md): the host's two views of the state. -/

namespace Sys2Proof.Machine

/-- The sound is active exactly while ST is above 0 (R101). -/
@[simp] theorem soundActive_eq_true_iff {s : State} : soundActive s = true ↔ 0 < s.st.toNat := by
  simp only [soundActive, decide_eq_true_eq, gt_iff_lt]

/-- The grid the host sees has the state's pixels (R100). -/
@[simp] theorem pixelGrid_pixel (s : State) (c : Fin 64) (r : Fin 32) :
    (pixelGrid s).pixel c r = s.grid.pixel c r := rfl

/-- `pixel_grid()` replies with the view and keeps the state (R100). -/
theorem hostCall_pixelGrid (s : State) : hostCall .pixelGrid s = .next (s, .grid (pixelGrid s)) := rfl

/-- `sound_active()` replies with the sound's state and keeps the machine's (R101). -/
theorem hostCall_soundActive (s : State) : hostCall .soundActive s = .next (s, .sound (soundActive s)) := rfl

/-- Settles O19: each call keeps the state, one replies with its pixels and the other with whether ST is above 0. -/
theorem hostViewsChangeNothing : Obligations.HostViewsChangeNothing := by
  unfold Obligations.HostViewsChangeNothing
  intro s
  constructor
  · exact ⟨pixelGrid s, hostCall_pixelGrid s, pixelGrid_pixel s⟩
  · exact ⟨soundActive s, hostCall_soundActive s, soundActive_eq_true_iff⟩

end Sys2Proof.Machine
end


section
/-! PROOFS. The family Control (spec/41_control.md): the words of the skips on registers and immediates, and what a skip
does. -/

namespace Sys2Proof.Machine

/-! ### The words of formats XNN, XY and XYN as numbers (R72) -/

theorem ofNat_eq_packXNN (o : BitVec 4) (x : Reg) (nn : Byte) :
    BitVec.ofNat 16 (o.toNat * 4096 + 256 * x.val + nn.toNat) = packXNN o x nn := by
  rw [Nat.mul_comm 256, ← toNat_packXNN, BitVec.ofNat_toNat, BitVec.setWidth_eq]

theorem ofNat_eq_packXYN (o : BitVec 4) (x y n : Reg) :
    BitVec.ofNat 16 (o.toNat * 4096 + 256 * x.val + 16 * y.val + n.val) = packXYN o x y (nib n) := by
  rw [Nat.mul_comm 256, Nat.mul_comm 16, ← toNat_nib n, ← toNat_packXYN, BitVec.ofNat_toNat, BitVec.setWidth_eq]

/-! ### The rows of the skips (R75, R77) -/

theorem decodeWord_seImm (x : Reg) (nn : Byte) : decodeWord (packXNN 0x3 x nn) = .ok (.seImm x nn) := by
  rw [decodeWord_ok]
  simp [decodeRow]

theorem decodeWord_sneImm (x : Reg) (nn : Byte) : decodeWord (packXNN 0x4 x nn) = .ok (.sneImm x nn) := by
  rw [decodeWord_ok]
  simp [decodeRow]

/-- Group 5 has the one row with `n` = 0. -/
theorem decodeGroup5_eq (op : Word) :
    decodeGroup5 op = if fieldN op = 0 then some (.seReg (fieldX op) (fieldY op)) else none := by
  unfold decodeGroup5
  split
  · next h => rw [if_pos (Fin.ext h)]
  · next h => rw [if_neg fun h0 => h (congrArg Fin.val h0)]

/-- Group 9 has the one row with `n` = 0. -/
theorem decodeGroup9_eq (op : Word) :
    decodeGroup9 op = if fieldN op = 0 then some (.sneReg (fieldX op) (fieldY op)) else none := by
  unfold decodeGroup9
  split
  · next h => rw [if_pos (Fin.ext h)]
  · next h => rw [if_neg fun h0 => h (congrArg Fin.val h0)]

theorem decodeRow_group5 (x y n : Reg) :
    decodeRow (packXYN 0x5 x y (nib n)) = if n = 0 then some (.seReg x y) else none := by
  simp [decodeRow, decodeGroup5_eq]

theorem decodeRow_group9 (x y n : Reg) :
    decodeRow (packXYN 0x9 x y (nib n)) = if n = 0 then some (.sneReg x y) else none := by
  simp [decodeRow, decodeGroup9_eq]

theorem decodeWord_seReg (x y : Reg) : decodeWord (packXYN 0x5 x y (nib 0)) = .ok (.seReg x y) := by
  rw [decodeWord_ok, decodeRow_group5, if_pos rfl]

theorem decodeWord_sneReg (x y : Reg) : decodeWord (packXYN 0x9 x y (nib 0)) = .ok (.sneReg x y) := by
  rw [decodeWord_ok, decodeRow_group9, if_pos rfl]

theorem decodeWord_group5_ne_ok (x y : Reg) {n : Reg} (hn : n ≠ 0) (i : Instr) :
    decodeWord (packXYN 0x5 x y (nib n)) ≠ .ok i :=
  decodeRow_eq_none_iff.mp (by rw [decodeRow_group5, if_neg hn]) i

theorem decodeWord_group9_ne_ok (x y : Reg) {n : Reg} (hn : n ≠ 0) (i : Instr) :
    decodeWord (packXYN 0x9 x y (nib n)) ≠ .ok i :=
  decodeRow_eq_none_iff.mp (by rw [decodeRow_group9, if_neg hn]) i

/-! ### What a skip does (R10, R114 to R117) -/

/-- A skip whose test decides `p` adds 2 to `pc` exactly when `p` holds. -/
theorem skipIf_eq_ite {c : Bool} {p : Prop} [Decidable p] (h : c = true ↔ p) (s : State) :
    s.skipIf c = if p then { s with pc := s.pc + 2 } else s := by
  simp only [State.skipIf, h]
  rfl

theorem exec_seImm (x : Reg) (nn : Byte) (s : State) :
    exec (.seImm x nn) s = .next (if s.readV x = nn then { s with pc := s.pc + 2 } else s) :=
  congrArg Host.Outcome.next (skipIf_eq_ite beq_iff_eq s)

theorem exec_sneImm (x : Reg) (nn : Byte) (s : State) :
    exec (.sneImm x nn) s = .next (if s.readV x ≠ nn then { s with pc := s.pc + 2 } else s) :=
  congrArg Host.Outcome.next (skipIf_eq_ite bne_iff_ne s)

theorem exec_seReg (x y : Reg) (s : State) :
    exec (.seReg x y) s = .next (if s.readV x = s.readV y then { s with pc := s.pc + 2 } else s) :=
  congrArg Host.Outcome.next (skipIf_eq_ite beq_iff_eq s)

theorem exec_sneReg (x y : Reg) (s : State) :
    exec (.sneReg x y) s = .next (if s.readV x ≠ s.readV y then { s with pc := s.pc + 2 } else s) :=
  congrArg Host.Outcome.next (skipIf_eq_ite bne_iff_ne s)

/-- Settles O28: each word is the packed word of its row, groups 5 and 9 have no row with `n` above 0, and each execute
phase is one conditional skip. -/
theorem skipsAddTwoExactlyOnTheirCondition : Obligations.SkipsAddTwoExactlyOnTheirCondition := by
  unfold Obligations.SkipsAddTwoExactlyOnTheirCondition
  intro x y nn
  refine ⟨⟨?_, ?_, ?_, ?_⟩, fun n i hn => ⟨?_, ?_⟩, fun s => ⟨?_, ?_, ?_, ?_⟩⟩
  · exact ofNat_eq_packXNN 0x3 x nn ▸ decodeWord_seImm x nn
  · exact ofNat_eq_packXNN 0x4 x nn ▸ decodeWord_sneImm x nn
  · exact ofNat_eq_packXYN 0x5 x y 0 ▸ decodeWord_seReg x y
  · exact ofNat_eq_packXYN 0x9 x y 0 ▸ decodeWord_sneReg x y
  · exact ofNat_eq_packXYN 0x5 x y n ▸ decodeWord_group5_ne_ok x y hn i
  · exact ofNat_eq_packXYN 0x9 x y n ▸ decodeWord_group9_ne_ok x y hn i
  · exact exec_seImm x nn s
  · exact exec_sneImm x nn s
  · exact exec_seReg x y s
  · exact exec_sneReg x y s

end Sys2Proof.Machine
end


section
/-! PROOFS. The family Display (spec/42_display.md): the one word of CLS, and the clear grid. -/

namespace Sys2Proof.Machine

/-! ### The row of CLS (R75, R77) -/

theorem decodeGroup0_eq_cls_iff {op : Word} : decodeGroup0 op = some .cls ↔ (fieldNNN op).toNat = 0x0E0 := by
  unfold decodeGroup0
  split
  · next h => simp [h]
  · next h => simp [h]
  · next h => simp [h]
  · next hne _ => exact iff_of_false nofun hne

theorem decodeGroup8_ne_cls (op : Word) : decodeGroup8 op ≠ some .cls := by
  unfold decodeGroup8
  split <;> nofun

theorem decodeGroupE_ne_cls (op : Word) : decodeGroupE op ≠ some .cls := by
  unfold decodeGroupE
  split <;> nofun

theorem decodeGroupF_ne_cls (op : Word) : decodeGroupF op ≠ some .cls := by
  unfold decodeGroupF
  split <;> nofun

/-- CLS is a row of group 0 only (R74). -/
theorem nibble1_of_decodeRow_cls {op : Word} (h : decodeRow op = some .cls) : nibble1 op = 0 := by
  unfold decodeRow at h
  split at h
  case h_1 hzero => exact hzero
  all_goals
    simp [decodeGroup5_eq, decodeGroup8_ne_cls, decodeGroup9_eq, decodeGroupE_ne_cls, decodeGroupF_ne_cls] at h

theorem decodeRow_of_nibble1_zero {op : Word} (h : nibble1 op = 0) : decodeRow op = decodeGroup0 op := by
  simp only [decodeRow, h]

theorem decodeRow_eq_cls_iff {op : Word} :
    decodeRow op = some .cls ↔ nibble1 op = 0 ∧ (fieldNNN op).toNat = 0x0E0 := by
  rw [← decodeGroup0_eq_cls_iff]
  constructor
  · intro hrow
    have hzero := nibble1_of_decodeRow_cls hrow
    exact ⟨hzero, decodeRow_of_nibble1_zero hzero ▸ hrow⟩
  · rintro ⟨hzero, hgroup⟩
    rw [decodeRow_of_nibble1_zero hzero, hgroup]

/-- The major opcode and `nnn` make up the word (R71). -/
theorem word_eq_iff {op w : Word} : op = w ↔ nibble1 op = nibble1 w ∧ (fieldNNN op).toNat = (fieldNNN w).toNat := by
  simp only [nibble1_eq, fieldNNN_toNat, BitVec.toNat_eq]
  omega

theorem decodeWord_eq_cls_iff {op : Word} : decodeWord op = .ok .cls ↔ op = 0x00E0 := by
  rw [decodeWord_ok, decodeRow_eq_cls_iff, word_eq_iff]
  rfl

/-! ### The execute phase of CLS (R132) -/

theorem exec_cls (s : State) : exec .cls s = .next { s with grid := Grid.clear } := rfl

theorem grid_eq_clear_iff {g : Grid} : g = Grid.clear ↔ ∀ c r, g.pixel c r = false :=
  ⟨fun h c r => h ▸ pixel_clear c r, fun h => grid_ext fun c r => (h c r).trans (pixel_clear c r).symm⟩

/-- Settles O29: group 0 is the only group with a CLS row, the clear grid has no cell set, and a grid with no cell set is
the clear grid. -/
theorem clearScreenClearsEveryCell : Obligations.ClearScreenClearsEveryCell := by
  unfold Obligations.ClearScreenClearsEveryCell
  refine ⟨fun op => decodeWord_eq_cls_iff, fun s => ⟨⟨Grid.clear, exec_cls s, pixel_clear⟩, fun hclear => ?_⟩⟩
  rw [exec_cls, ← grid_eq_clear_iff.mpr hclear]

end Sys2Proof.Machine
end


section
/-! PROOFS. The family ALU (spec/43_alu.md): the words of the loads, additions and bitwise operations, and what each writes. -/

namespace Sys2Proof.Machine

/-! ### The words and rows (R72, R75) -/

/-- The word of format XY whose fixed last nibble is `n`, as a number. -/
theorem ofNat_eq_packXY (o : BitVec 4) (x y n : Reg) :
    BitVec.ofNat 16 (o.toNat * 4096 + n.val + 256 * x.val + 16 * y.val) = packXYN o x y (nib n) := by
  rw [← ofNat_eq_packXYN]
  congr 1
  omega

theorem decodeWord_ldImm (x : Reg) (nn : Byte) : decodeWord (packXNN 0x6 x nn) = .ok (.ldImm x nn) := by
  rw [decodeWord_ok]
  simp [decodeRow]

theorem decodeWord_addImm (x : Reg) (nn : Byte) : decodeWord (packXNN 0x7 x nn) = .ok (.addImm x nn) := by
  rw [decodeWord_ok]
  simp [decodeRow]

/-- A word with major opcode 8 decodes by its last nibble alone (R74). -/
theorem decodeWord_group8_ok_iff {x y : Reg} {n : BitVec 4} {i : Instr} :
    decodeWord (packXYN 0x8 x y n) = .ok i ↔ decodeGroup8 (packXYN 0x8 x y n) = some i := by
  rw [decodeWord_ok]
  simp [decodeRow]

theorem decodeWord_ldReg (x y : Reg) : decodeWord (packXYN 0x8 x y (nib 0)) = .ok (.ldReg x y) :=
  decodeWord_group8_ok_iff.mpr (by simp [decodeGroup8])

theorem decodeWord_orReg (x y : Reg) : decodeWord (packXYN 0x8 x y (nib 1)) = .ok (.orReg x y) :=
  decodeWord_group8_ok_iff.mpr (by simp [decodeGroup8])

theorem decodeWord_andReg (x y : Reg) : decodeWord (packXYN 0x8 x y (nib 2)) = .ok (.andReg x y) :=
  decodeWord_group8_ok_iff.mpr (by simp [decodeGroup8])

theorem decodeWord_xorReg (x y : Reg) : decodeWord (packXYN 0x8 x y (nib 3)) = .ok (.xorReg x y) :=
  decodeWord_group8_ok_iff.mpr (by simp [decodeGroup8])

theorem decodeWord_addReg (x y : Reg) : decodeWord (packXYN 0x8 x y (nib 4)) = .ok (.addReg x y) :=
  decodeWord_group8_ok_iff.mpr (by simp [decodeGroup8])

/-! ### Sum and carry (R147) -/

/-- The sum modulo 256 is the sum of bytes. -/
theorem sumByte_eq_add (a b : Byte) : sumByte a b = a + b := by
  apply BitVec.eq_of_toNat_eq
  simp [sumByte]

theorem carryFlag_eq_ite (a b : Byte) : carryFlag a b = if 255 < a.toNat + b.toNat then 1 else 0 := by
  simp only [carryFlag, flagByte, decide_eq_true_eq, gt_iff_lt]

/-! ### What an execute phase that writes V[x], or V[x] and then VF, leaves (R34, R140) -/

theorem writesRegisters_of_exec_writeV {i : Instr} {s : State} {x : Reg} {b : Byte}
    (h : exec i s = .next (s.writeV x b)) : WritesRegisters i s fun k => if k = x then b else s.readV k :=
  ⟨_, h, fun k => s.readV_writeV x k b⟩

theorem writesRegisters_of_exec_writeWithFlag {i : Instr} {s : State} {x : Reg} {b g : Byte}
    (h : exec i s = .next (s.writeWithFlag x b g)) :
    WritesRegisters i s fun k => if k = VF then g else if k = x then b else s.readV k :=
  ⟨_, h, fun k => s.readV_writeWithFlag x k b g⟩

/-! ### The execute phases (R142, R147) -/

theorem exec_addImm (x : Reg) (nn : Byte) (s : State) :
    exec (.addImm x nn) s = .next (s.writeV x (s.readV x + nn)) := by
  rw [← sumByte_eq_add]
  rfl

theorem exec_addReg (x y : Reg) (s : State) :
    exec (.addReg x y) s = .next (s.writeWithFlag x (s.readV x + s.readV y)
      (if 255 < (s.readV x).toNat + (s.readV y).toNat then 1 else 0)) := by
  rw [← sumByte_eq_add, ← carryFlag_eq_ite]
  rfl

/-- Settles O32: both words are packed words of format XNN, and each execute phase is one write of V[x]. -/
theorem immediateLoadAndAddWriteVxOnly : Obligations.ImmediateLoadAndAddWriteVxOnly := by
  unfold Obligations.ImmediateLoadAndAddWriteVxOnly
  intro x nn
  refine ⟨⟨?_, ?_⟩, fun s => ⟨?_, ?_⟩⟩
  · exact ofNat_eq_packXNN 0x6 x nn ▸ decodeWord_ldImm x nn
  · exact ofNat_eq_packXNN 0x7 x nn ▸ decodeWord_addImm x nn
  · exact writesRegisters_of_exec_writeV rfl
  · exact writesRegisters_of_exec_writeV (exec_addImm x nn s)

/-- Settles O33: the four words are the rows `n` = 0 to 3 of group 8, and each execute phase is one write of V[x]. -/
theorem copyAndLogicWriteVxOnly : Obligations.CopyAndLogicWriteVxOnly := by
  unfold Obligations.CopyAndLogicWriteVxOnly
  intro x y
  refine ⟨⟨?_, ?_, ?_, ?_⟩, fun s => ⟨?_, ?_, ?_, ?_⟩⟩
  · exact ofNat_eq_packXY 0x8 x y 0 ▸ decodeWord_ldReg x y
  · exact ofNat_eq_packXY 0x8 x y 1 ▸ decodeWord_orReg x y
  · exact ofNat_eq_packXY 0x8 x y 2 ▸ decodeWord_andReg x y
  · exact ofNat_eq_packXY 0x8 x y 3 ▸ decodeWord_xorReg x y
  all_goals exact writesRegisters_of_exec_writeV rfl

/-- Settles O34: the word is row `n` = 4 of group 8, and the execute phase writes the sum and then the carry, so with x = 15
the carry stays. -/
theorem addRegistersSetsCarry : Obligations.AddRegistersSetsCarry := by
  unfold Obligations.AddRegistersSetsCarry
  intro x y
  refine ⟨?_, fun s => ?_⟩
  · exact ofNat_eq_packXY 0x8 x y 4 ▸ decodeWord_addReg x y
  · exact writesRegisters_of_exec_writeWithFlag (exec_addReg x y s)

end Sys2Proof.Machine
end


section
/-! PROOFS. The family Index and memory (spec/44_index_memory.md): the word of LD I, nnn and what it leaves. -/

namespace Sys2Proof.Machine

/-! ### The words of format NNN as numbers (R72), and the zero extension of `nnn` (R73) -/

theorem ofNat_eq_packNNN (o : BitVec 4) (nnn : Addr) :
    BitVec.ofNat 16 (o.toNat * 4096 + nnn.toNat) = packNNN o nnn := by
  rw [← toNat_packNNN, BitVec.ofNat_toNat, BitVec.setWidth_eq]

@[simp] theorem toNat_zextAddr (nnn : Addr) : (zextAddr nnn).toNat = nnn.toNat :=
  BitVec.toNat_setWidth_of_le (by decide)

/-! ### The row and the execute phase of LD I, nnn (R75, R170) -/

theorem decodeWord_ldI (nnn : Addr) : decodeWord (packNNN 0xA nnn) = .ok (.ldI nnn) := by
  rw [decodeWord_ok]
  simp [decodeRow]

theorem exec_ldI (nnn : Addr) (s : State) : exec (.ldI nnn) s = .next { s with i := zextAddr nnn } := rfl

/-- Settles O38: the word is the packed word of format NNN with major opcode 0xA, and the execute phase is one write of I,
whose zero extension keeps the value of `nnn`. -/
theorem loadIndexWritesI : Obligations.LoadIndexWritesI := by
  unfold Obligations.LoadIndexWritesI
  intro nnn
  constructor
  · exact ofNat_eq_packNNN 0xA nnn ▸ decodeWord_ldI nnn
  · intro s
    exact ⟨_, exec_ldI nnn s, toNat_zextAddr nnn, rfl⟩

end Sys2Proof.Machine
end


section
/-! PROOFS. The family Keys and timers (spec/45_keys_timers.md): the words of the timer moves, and what each leaves. -/

namespace Sys2Proof.Machine

/-! ### The words and rows of format X (R72, R75) -/

/-- The word of format X whose fixed last byte is `nn`, as a number. -/
theorem ofNat_eq_packX (o : BitVec 4) (x : Reg) (nn : Byte) :
    BitVec.ofNat 16 (o.toNat * 4096 + nn.toNat + 256 * x.val) = packXNN o x nn := by
  rw [← ofNat_eq_packXNN, Nat.add_right_comm]

/-- A word with major opcode F decodes by its last byte alone (R74). -/
theorem decodeWord_groupF_ok_iff {x : Reg} {nn : Byte} {i : Instr} :
    decodeWord (packXNN 0xF x nn) = .ok i ↔ decodeGroupF (packXNN 0xF x nn) = some i := by
  rw [decodeWord_ok]
  simp [decodeRow]

theorem decodeWord_ldVxDt (x : Reg) : decodeWord (packXNN 0xF x 0x07) = .ok (.ldVxDt x) :=
  decodeWord_groupF_ok_iff.mpr (by simp [decodeGroupF])

theorem decodeWord_ldDtVx (x : Reg) : decodeWord (packXNN 0xF x 0x15) = .ok (.ldDtVx x) :=
  decodeWord_groupF_ok_iff.mpr (by simp [decodeGroupF])

theorem decodeWord_ldStVx (x : Reg) : decodeWord (packXNN 0xF x 0x18) = .ok (.ldStVx x) :=
  decodeWord_groupF_ok_iff.mpr (by simp [decodeGroupF])

/-! ### The execute phases (R192, R194, R195) -/

theorem exec_ldVxDt (x : Reg) (s : State) : exec (.ldVxDt x) s = .next (s.writeV x s.dt) := rfl

theorem exec_ldDtVx (x : Reg) (s : State) : exec (.ldDtVx x) s = .next { s with dt := s.readV x } := rfl

theorem exec_ldStVx (x : Reg) (s : State) : exec (.ldStVx x) s = .next { s with st := s.readV x } := rfl

/-- The sound is active exactly while ST is not 0 (R101). -/
theorem soundActive_iff_st_ne_zero {s : State} : soundActive s = true ↔ s.st ≠ 0 := by
  rw [soundActive_eq_true_iff, Nat.pos_iff_ne_zero, ne_eq, ne_eq, BitVec.toNat_eq]
  rfl

/-- Settles O48: the words are the rows 0x07, 0x15 and 0x18 of group F, each execute phase is one write of V[x], DT or ST,
and the sound follows the ST just written. -/
theorem timerMovesCopyTheValue : Obligations.TimerMovesCopyTheValue := by
  unfold Obligations.TimerMovesCopyTheValue
  intro x
  refine ⟨⟨?_, ?_, ?_⟩, fun s => ⟨?_, ?_, ?_⟩⟩
  · exact ofNat_eq_packX 0xF x 0x07 ▸ decodeWord_ldVxDt x
  · exact ofNat_eq_packX 0xF x 0x15 ▸ decodeWord_ldDtVx x
  · exact ofNat_eq_packX 0xF x 0x18 ▸ decodeWord_ldStVx x
  · exact writesRegisters_of_exec_writeV (exec_ldVxDt x s)
  · exact exec_ldDtVx x s
  · exact ⟨_, exec_ldStVx x s, rfl, soundActive_iff_st_ne_zero⟩

end Sys2Proof.Machine
end


section
/-! PROOFS. The family Encoding (spec/30_encoding.md): the round trip between words and instructions, and the words of no
row. -/

namespace Sys2Proof.Machine

/-! ### From an instruction to its word and back (R72, R74) -/

/-- A word with major opcode E decodes by its last byte alone (R74). -/
theorem decodeWord_groupE_ok_iff {x : Reg} {nn : Byte} {i : Instr} :
    decodeWord (packXNN 0xE x nn) = .ok i ↔ decodeGroupE (packXNN 0xE x nn) = some i := by
  rw [decodeWord_ok]
  simp [decodeRow]

/-- An instruction's own word decodes to it: `encode` writes the fields where the dispatch reads them. -/
theorem decodeWord_encode (i : Instr) : decodeWord (encode i) = .ok i := by
  cases i with
  | nop | cls | ret => rfl
  | seImm x nn => exact decodeWord_seImm x nn
  | sneImm x nn => exact decodeWord_sneImm x nn
  | seReg x y => exact decodeWord_seReg x y
  | sneReg x y => exact decodeWord_sneReg x y
  | ldImm x nn => exact decodeWord_ldImm x nn
  | addImm x nn => exact decodeWord_addImm x nn
  | ldI nnn => exact decodeWord_ldI nnn
  | ldReg x y => exact decodeWord_ldReg x y
  | orReg x y => exact decodeWord_orReg x y
  | andReg x y => exact decodeWord_andReg x y
  | xorReg x y => exact decodeWord_xorReg x y
  | addReg x y => exact decodeWord_addReg x y
  | ldVxDt x => exact decodeWord_ldVxDt x
  | ldDtVx x => exact decodeWord_ldDtVx x
  | ldStVx x => exact decodeWord_ldStVx x
  | jp | call | jpV0 => rw [decodeWord_ok]; change decodeRow (packNNN _ _) = _; simp [decodeRow]
  | rnd => rw [decodeWord_ok]; change decodeRow (packXNN _ _ _) = _; simp [decodeRow]
  | drw => rw [decodeWord_ok]; change decodeRow (packXYN _ _ _ _) = _; simp [decodeRow]
  | sub | shr | subn | shl => exact Iff.mpr decodeWord_group8_ok_iff (by simp [decodeGroup8])
  | skp | sknp => exact Iff.mpr decodeWord_groupE_ok_iff (by simp [decodeGroupE])
  | ldVxK | addI | ldF | ldB | ldMemVx | ldVxMem =>
    exact Iff.mpr decodeWord_groupF_ok_iff (by simp [decodeGroupF])

theorem decodeRow_encode (i : Instr) : decodeRow (encode i) = some i := by
  rw [← decodeWord_ok, decodeWord_encode]

/-- The bytes of an instruction, with any rest (R70). -/
theorem decode_encodeBytes (i : Instr) (rest : List Byte) : decode (encodeBytes i ++ rest) = .ok (i, rest) := by
  simp [encodeBytes, decode, decodeWord_encode]

/-- Settles O1: each format puts the operands into the fields that the dispatch reads, and two bytes make up the word. -/
theorem everyInstructionDecodesFromItsEncoding : Obligations.EveryInstructionDecodesFromItsEncoding := by
  unfold Obligations.EveryInstructionDecodesFromItsEncoding
  exact fun i => ⟨decodeWord_encode i, decode_encodeBytes i⟩

/-! ### From a word to its instruction and back: the fields of a word make it up again (R71) -/

theorem packNNN_fields {op : Word} {o : BitVec 4} (ho : nibble1 op = o.toNat) : packNNN o (fieldNNN op) = op := by
  obtain rfl : op.extractLsb' 12 4 = o := BitVec.eq_of_toNat_eq ho
  exact BitVec.extractLsb'_append_extractLsb'

theorem fieldNNN_eq_append (op : Word) : fieldNNN op = nib (fieldX op) ++ fieldNN op :=
  (BitVec.extractLsb'_append_extractLsb'_eq_extractLsb' (x := op) (len₂ := 4) (start₁ := 0) (len₁ := 8) rfl).symm

theorem fieldNN_eq_append (op : Word) : fieldNN op = nib (fieldY op) ++ nib (fieldN op) :=
  (BitVec.extractLsb'_append_extractLsb'_eq_extractLsb' (x := op) (len₂ := 4) (start₁ := 0) (len₁ := 4) rfl).symm

theorem packXNN_fields {op : Word} {o : BitVec 4} {nn : Byte} (ho : nibble1 op = o.toNat)
    (hnn : (fieldNN op).toNat = nn.toNat) : packXNN o (fieldX op) nn = op := by
  obtain rfl : fieldNN op = nn := BitVec.eq_of_toNat_eq hnn
  rw [packXNN, ← fieldNNN_eq_append]
  exact packNNN_fields ho

theorem packXYN_fields {op : Word} {o n : BitVec 4} (ho : nibble1 op = o.toNat) (hn : (fieldN op).val = n.toNat) :
    packXYN o (fieldX op) (fieldY op) n = op := by
  obtain rfl : nib (fieldN op) = n := BitVec.eq_of_toNat_eq hn
  rw [packXYN, ← fieldNN_eq_append, ← fieldNNN_eq_append]
  exact packNNN_fields ho

/-! Each group of the dispatch gives an instruction whose word is the one it read. -/

theorem encode_of_decodeGroup0 {op : Word} {i : Instr} (ho : nibble1 op = 0x0) (h : decodeGroup0 op = some i) :
    encode i = op := by
  unfold decodeGroup0 at h
  split at h
  case h_4 => cases h
  all_goals next hn => cases h; rw [eq_comm, word_eq_iff]; exact ⟨ho, hn⟩

theorem encode_of_decodeGroup5 {op : Word} {i : Instr} (ho : nibble1 op = 0x5) (h : decodeGroup5 op = some i) :
    encode i = op := by
  unfold decodeGroup5 at h
  split at h
  · next hn => cases h; exact packXYN_fields ho hn
  · cases h

theorem encode_of_decodeGroup8 {op : Word} {i : Instr} (ho : nibble1 op = 0x8) (h : decodeGroup8 op = some i) :
    encode i = op := by
  unfold decodeGroup8 at h
  split at h
  case h_10 => cases h
  all_goals next hn => cases h; exact packXYN_fields ho hn

theorem encode_of_decodeGroup9 {op : Word} {i : Instr} (ho : nibble1 op = 0x9) (h : decodeGroup9 op = some i) :
    encode i = op := by
  unfold decodeGroup9 at h
  split at h
  · next hn => cases h; exact packXYN_fields ho hn
  · cases h

theorem encode_of_decodeGroupE {op : Word} {i : Instr} (ho : nibble1 op = 0xE) (h : decodeGroupE op = some i) :
    encode i = op := by
  unfold decodeGroupE at h
  split at h
  case h_3 => cases h
  all_goals next hn => cases h; exact packXNN_fields ho hn

theorem encode_of_decodeGroupF {op : Word} {i : Instr} (ho : nibble1 op = 0xF) (h : decodeGroupF op = some i) :
    encode i = op := by
  unfold decodeGroupF at h
  split at h
  case h_10 => cases h
  all_goals next hn => cases h; exact packXNN_fields ho hn

theorem encode_of_decodeRow {op : Word} {i : Instr} (h : decodeRow op = some i) : encode i = op := by
  unfold decodeRow at h
  split at h
  case h_1 ho => exact encode_of_decodeGroup0 ho h
  case h_6 ho => exact encode_of_decodeGroup5 ho h
  case h_9 ho => exact encode_of_decodeGroup8 ho h
  case h_10 ho => exact encode_of_decodeGroup9 ho h
  case h_14 ho => cases h; exact packXYN_fields ho rfl
  case h_15 ho => exact encode_of_decodeGroupE ho h
  case h_16 ho => exact encode_of_decodeGroupF ho h
  case h_17 => cases h
  case h_4 ho | h_5 ho | h_7 ho | h_8 ho | h_13 ho => cases h; exact packXNN_fields ho rfl
  case h_2 ho | h_3 ho | h_11 ho | h_12 ho => cases h; exact packNNN_fields ho

theorem encode_of_decodeWord {op : Word} {i : Instr} (h : decodeWord op = .ok i) : encode i = op := by
  rw [decodeWord_ok] at h
  exact encode_of_decodeRow h

/-- Settles O2: the fields of a word make it up again, and each group fixes the rest of the bits. -/
theorem decodedWordIsTheEncodingOfItsInstruction : Obligations.DecodedWordIsTheEncodingOfItsInstruction := by
  unfold Obligations.DecodedWordIsTheEncodingOfItsInstruction
  exact fun op i => encode_of_decodeWord

/-- Both directions at once: an instruction has one word. -/
theorem decodeWord_eq_ok_iff {op : Word} {i : Instr} : decodeWord op = .ok i ↔ op = encode i := by
  constructor
  · exact fun h => (encode_of_decodeWord h).symm
  · rintro rfl
    exact decodeWord_encode i

end Sys2Proof.Machine
end


section
/-! PROOFS. The family Encoding: the invalid space (spec/30_encoding.md R76, R77), the sample words, and the word of NOP. -/

namespace Sys2Proof.Machine

/-! ### What each group of the dispatch rejects (R77) -/

theorem decodeGroup0_eq_none_iff {op : Word} : decodeGroup0 op = none ↔
    (fieldNNN op).toNat ≠ 0x000 ∧ (fieldNNN op).toNat ≠ 0x0E0 ∧ (fieldNNN op).toNat ≠ 0x0EE := by
  unfold decodeGroup0
  split <;> simp_all

theorem decodeGroup5_eq_none_iff {op : Word} : decodeGroup5 op = none ↔ (fieldN op).val ≠ 0 := by
  rw [decodeGroup5_eq, ite_eq_right_iff, ne_eq, Fin.val_eq_zero_iff]
  simp

theorem decodeGroup9_eq_none_iff {op : Word} : decodeGroup9 op = none ↔ (fieldN op).val ≠ 0 := by
  rw [decodeGroup9_eq, ite_eq_right_iff, ne_eq, Fin.val_eq_zero_iff]
  simp

theorem decodeGroup8_eq_none_iff {op : Word} : decodeGroup8 op = none ↔
    (fieldN op).val ∈ [0x8, 0x9, 0xA, 0xB, 0xC, 0xD, 0xF] := by
  have hrest : ∀ n : Reg, n.val ≠ 0 → n.val ≠ 1 → n.val ≠ 2 → n.val ≠ 3 → n.val ≠ 4 → n.val ≠ 5 → n.val ≠ 6 →
      n.val ≠ 7 → n.val ≠ 0xE → n.val ∈ [0x8, 0x9, 0xA, 0xB, 0xC, 0xD, 0xF] := by decide
  unfold decodeGroup8
  split
  case h_10 => exact iff_of_true rfl (hrest _ ‹_› ‹_› ‹_› ‹_› ‹_› ‹_› ‹_› ‹_› ‹_›)
  all_goals next hn => rw [hn]; exact iff_of_false (Option.some_ne_none _) (by decide)

theorem decodeGroupE_eq_none_iff {op : Word} : decodeGroupE op = none ↔ (fieldNN op).toNat ∉ [0x9E, 0xA1] := by
  unfold decodeGroupE
  split <;> simp_all

theorem decodeGroupF_eq_none_iff {op : Word} : decodeGroupF op = none ↔
    (fieldNN op).toNat ∉ [0x07, 0x0A, 0x15, 0x18, 0x1E, 0x29, 0x33, 0x55, 0x65] := by
  unfold decodeGroupF
  split
  case h_10 => exact iff_of_true rfl (by simp_all)
  all_goals next hnn => rw [hnn]; exact iff_of_false (Option.some_ne_none _) (by decide)

/-- A word of no row lies in one of the six groups that a secondary key selects in, and is rejected there (R74). -/
theorem decodeRow_eq_none_iff_group {op : Word} : decodeRow op = none ↔
    (nibble1 op = 0x0 ∧ decodeGroup0 op = none) ∨ (nibble1 op = 0x5 ∧ decodeGroup5 op = none) ∨
    (nibble1 op = 0x8 ∧ decodeGroup8 op = none) ∨ (nibble1 op = 0x9 ∧ decodeGroup9 op = none) ∨
    (nibble1 op = 0xE ∧ decodeGroupE op = none) ∨ (nibble1 op = 0xF ∧ decodeGroupF op = none) := by
  have hlt : nibble1 op < 16 := (op.extractLsb' 12 4).isLt
  unfold decodeRow
  split
  case h_17 => interval_cases nibble1 op <;> contradiction
  all_goals next ho => simp [ho]

/-- Settles O3: a word is rejected when its group has no row for its secondary key, and the fields are arithmetic on the
word. -/
theorem rejectedWordsAreExactlyTheInvalidSpace : Obligations.RejectedWordsAreExactlyTheInvalidSpace := by
  unfold Obligations.RejectedWordsAreExactlyTheInvalidSpace
  intro op
  rw [decodeWord_error, and_iff_left rfl, decodeRow_eq_none_iff_group, decodeGroup0_eq_none_iff, decodeGroup5_eq_none_iff,
    decodeGroup8_eq_none_iff, decodeGroup9_eq_none_iff, decodeGroupE_eq_none_iff, decodeGroupF_eq_none_iff, nibble1_eq,
    fieldNNN_toNat, fieldN_val, fieldNN_toNat]

/-- Settles O4: each decoded word is the encoding of its instruction, and 0x5001 has `n` = 1 in group 5. -/
theorem sampleWordsDecodeAsThePatternsSay : Obligations.SampleWordsDecodeAsThePatternsSay := by
  unfold Obligations.SampleWordsDecodeAsThePatternsSay
  refine ⟨?_, ?_, ?_, ?_, ?_, ?_, ?_, ?_, ?_, ?_, ?_, ?_⟩
  case refine_12 => rw [decodeWord_error]; exact ⟨rfl, rfl⟩
  all_goals rw [decodeWord_eq_ok_iff]; rfl

/-- Settles O21: NOP has one word, and its execute phase answers the state it is given. -/
theorem nopChangesNothing : Obligations.NopChangesNothing := by
  unfold Obligations.NopChangesNothing
  exact ⟨fun op => decodeWord_eq_ok_iff, fun s => rfl⟩

end Sys2Proof.Machine
end


section
/-! PROOFS. The family Interpreter loop (spec/40_interpreter_loop.md R91 to R96): what a step does in each mode, by the
instruction it fetches; the errors and the refusals of a running step (spec/60_exceptions.md R210, R211). -/

namespace Sys2Proof.Machine

/-! ### The running step, by the fetched instruction (R91, R92) -/

/-- The fetch's advance is exact: `pc` does not wrap. -/
theorem toNat_advance_pc {s : State} {op : Word} (hfetch : FetchesWord s op) : s.advance.pc.toNat = s.pc.toNat + 2 := by
  obtain ⟨hpc, -, -⟩ := hfetch
  rw [State.advance_pc, BitVec.toNat_add]
  exact Nat.mod_eq_of_lt (by simp; omega)

theorem step_of_fetches {s : State} {i : Instr} (hrun : s.mode = .running) (hfetch : FetchesWord s (encode i)) :
    step s = exec i s.advance := by
  rw [step_running hrun]
  simp only [stepRunning, fetchWord_of_fetches hfetch, runWord, decodeRow_encode]

theorem step_of_fetch_outside {s : State} (hrun : s.mode = .running) (hpc : 4096 ≤ s.pc.toNat + 1) :
    step s = .next { s with mode := .faulted (.outOfBounds (max s.pc.toNat 4096)) } := by
  rw [step_running hrun]
  simp only [stepRunning, fetchWord_error hpc, raiseError]

/-- What a running step can do: its fetch fails, or it meets a word of no row, or it executes the instruction whose word lies
at `pc` on the state after the fetch. -/
theorem step_running_cases {s : State} (hrun : s.mode = .running) :
    (4096 ≤ s.pc.toNat + 1 ∧ step s = .next { s with mode := .faulted (.outOfBounds (max s.pc.toNat 4096)) }) ∨
    (∃ op, FetchesWord s op ∧ (∀ i, decodeWord op ≠ .ok i) ∧
      step s = .next { s.advance with mode := .faulted (.invalidOpcode op) }) ∨
    (∃ i, FetchesWord s (encode i) ∧ step s = exec i s.advance) := by
  rw [step_running hrun]
  obtain hout | ⟨op, hword, hpc, hrow, hstep⟩ | ⟨op, i, hword, hpc, hrow, hstep⟩ := stepRunning_cases s
  · exact .inl hout
  · rw [decodeRow_eq_none_iff] at hrow
    exact .inr (.inl ⟨op, fetches_of_fetchWord hword hpc, hrow, hstep⟩)
  · exact .inr (.inr ⟨i, encode_of_decodeRow hrow ▸ fetches_of_fetchWord hword hpc, hstep⟩)

/-- The state after the fetch is not halted. -/
theorem advance_not_faulted {s : State} (hrun : s.mode = .running) (e : Fault) : s.advance.mode ≠ .faulted e := by
  simp [hrun]

/-- Settles O5: the word that lies at `pc` is the encoding of the instruction it decodes to. -/
theorem stepRunsTheDecodedInstruction : Obligations.StepRunsTheDecodedInstruction := by
  unfold Obligations.StepRunsTheDecodedInstruction
  intro s op i hrun hfetch hdecode
  rw [decodeWord_eq_ok_iff] at hdecode
  subst hdecode
  exact ⟨step_of_fetches hrun hfetch, toNat_advance_pc hfetch⟩

/-- Settles O6: the first offending address is `pc`, or 4096 when only the second byte is outside memory. -/
theorem fetchOutsideMemoryRaisesOutOfBounds : Obligations.FetchOutsideMemoryRaisesOutOfBounds := by
  unfold Obligations.FetchOutsideMemoryRaisesOutOfBounds
  intro s hrun hpc
  have haddr : (if 4096 ≤ s.pc.toNat then s.pc.toNat else s.pc.toNat + 1) = max s.pc.toNat 4096 := by
    split
    · next h => exact (Nat.max_eq_left h).symm
    · next h => rw [Nat.max_eq_right (Nat.le_of_not_le h)]; omega
  rw [haddr]
  exact step_of_fetch_outside hrun hpc

/-! ### Errors (R210, R214) -/

/-- Settles O11: a failed fetch sets the mode only, and after the fetch an error sets the mode only. -/
theorem errorsLeaveAllButPcAndModeUnchanged : Obligations.ErrorsLeaveAllButPcAndModeUnchanged := by
  unfold Obligations.ErrorsLeaveAllButPcAndModeUnchanged
  intro s t e hrun hstep hfault
  obtain ⟨hpc, hs⟩ | ⟨op, -, -, hs⟩ | ⟨i, -, hs⟩ := step_running_cases hrun
  · cases hs.symm.trans hstep
    cases hfault
    exact .inr ⟨hpc, rfl⟩
  · cases hs.symm.trans hstep
    cases hfault
    exact .inl rfl
  · exact .inl (exec_faulted (advance_not_faulted hrun) (hs.symm.trans hstep) hfault).1

/-- Settles O12: the three ways a running step can halt, the third by the instruction (`exec_faulted`). -/
theorem eachErrorComesFromItsOwnInstructions : Obligations.EachErrorComesFromItsOwnInstructions := by
  unfold Obligations.EachErrorComesFromItsOwnInstructions
  intro s t e hrun hstep hfault
  obtain ⟨hpc, hs⟩ | ⟨op, hfetch, hunknown, hs⟩ | ⟨i, hfetch, hs⟩ := step_running_cases hrun
  · cases hs.symm.trans hstep
    cases hfault
    exact .inl ⟨_, rfl, Nat.le_max_right .., .inl hpc⟩
  · cases hs.symm.trans hstep
    cases hfault
    exact .inr (.inr (.inr ⟨op, rfl, hfetch, hunknown⟩))
  · obtain ⟨-, ⟨he, x, y, n, hi⟩ | ⟨he, hsp, nnn, rfl⟩ | ⟨he, hsp, rfl⟩⟩ :=
      exec_faulted (advance_not_faulted hrun) (hs.symm.trans hstep) hfault
    · exact .inl ⟨_, he, Nat.le_max_right .., .inr ⟨i, x, y, n, hfetch, hi⟩⟩
    · exact .inr (.inl ⟨he, hsp, nnn, hfetch⟩)
    · exact .inr (.inr (.inl ⟨he, hsp, hfetch⟩))

/-! ### Refusals (R211) -/

/-- A step is refused exactly when it executes an instruction that is. -/
theorem step_refused_iff {s : State} {r : Refusal} : step s = .refused r ↔
    s.mode = .running ∧ ∃ i, FetchesWord s (encode i) ∧ exec i s.advance = .refused r := by
  constructor
  · intro hstep
    cases hmode : s.mode with
    | running =>
      obtain ⟨-, hs⟩ | ⟨op, -, -, hs⟩ | ⟨i, hfetch, hs⟩ := step_running_cases hmode
      · cases hs.symm.trans hstep
      · cases hs.symm.trans hstep
      · exact ⟨rfl, i, hfetch, hs.symm.trans hstep⟩
    | awaitingKey x => cases (step_awaiting hmode).symm.trans hstep
    | faulted e => cases (step_faulted hmode).symm.trans hstep
  · rintro ⟨hrun, i, hfetch, hexec⟩
    exact (step_of_fetches hrun hfetch).trans hexec

@[simp] theorem readV_advance (s : State) (x : Reg) : s.advance.readV x = s.readV x := rfl

/-- Settles O13: a step is refused when the fetched instruction is, and the fetch changes neither I nor a register. -/
theorem refusedStepsAreExactlyTheThreeCases : Obligations.RefusedStepsAreExactlyTheThreeCases := by
  unfold Obligations.RefusedStepsAreExactlyTheThreeCases
  intro s r
  simp only [step_refused_iff, exec_refused, State.advance_i, readV_advance]
  refine and_congr_right fun _ => ⟨?_, ?_⟩
  · rintro ⟨i, hfetch, x, ⟨rfl | rfl, h⟩ | ⟨rfl | rfl, h⟩ | ⟨rfl, h⟩⟩
    · exact ⟨x, .inl ⟨.inl hfetch, h⟩⟩
    · exact ⟨x, .inl ⟨.inr hfetch, h⟩⟩
    · exact ⟨x, .inr (.inl ⟨.inl hfetch, h⟩)⟩
    · exact ⟨x, .inr (.inl ⟨.inr hfetch, h⟩)⟩
    · exact ⟨x, .inr (.inr ⟨hfetch, h⟩)⟩
  · rintro ⟨x, ⟨hfetch | hfetch, h⟩ | ⟨hfetch | hfetch, h⟩ | ⟨hfetch, h⟩⟩
    · exact ⟨_, hfetch, x, .inl ⟨.inl rfl, h⟩⟩
    · exact ⟨_, hfetch, x, .inl ⟨.inr rfl, h⟩⟩
    · exact ⟨_, hfetch, x, .inr (.inl ⟨.inl rfl, h⟩)⟩
    · exact ⟨_, hfetch, x, .inr (.inl ⟨.inr rfl, h⟩)⟩
    · exact ⟨_, hfetch, x, .inr (.inr ⟨rfl, h⟩)⟩

/-- Settles O14: in mode Running errors are taken as next states, and the other modes always answer one. -/
theorem noStepEndsInAFaultOutcome : Obligations.NoStepEndsInAFaultOutcome := by
  unfold Obligations.NoStepEndsInAFaultOutcome
  intro s e
  cases hmode : s.mode with
  | running =>
    obtain ⟨-, hs⟩ | ⟨op, -, -, hs⟩ | ⟨i, -, hs⟩ := step_running_cases hmode
    · simp [hs]
    · simp [hs]
    · rw [hs]; exact exec_ne_fault i s.advance e
  | awaitingKey x => simp [step_awaiting hmode]
  | faulted e' => simp [step_faulted hmode]

/-! ### The key wait (R95) -/

theorem step_awaiting_no_key {s : State} {x : Reg} (hmode : s.mode = .awaitingKey x)
    (hkeys : ∀ k : Fin 16, s.key.get k = false) : step s = .next s := by
  rw [← lowestKey_none] at hkeys
  rw [step_awaiting hmode, pollKeys, hkeys]

theorem step_awaiting_key {s : State} {x : Reg} {k : Fin 16} (hmode : s.mode = .awaitingKey x)
    (hk : s.key.get k = true) (hlow : ∀ j : Fin 16, j < k → s.key.get j = false) :
    step s = .next { s.writeV x (BitVec.ofNat 8 k.val) with mode := .running } := by
  have hlowest : lowestKey s.key = some k.val := by
    rw [lowestKey_some]
    exact ⟨k.isLt, hk, hlow⟩
  rw [step_awaiting hmode, pollKeys, hlowest]

/-- Settles O9: the poll finds no key, or the lowest one. -/
theorem keyWaitEndsWithTheLowestPressedKey : Obligations.KeyWaitEndsWithTheLowestPressedKey := by
  unfold Obligations.KeyWaitEndsWithTheLowestPressedKey
  intro s x hmode
  constructor
  · exact step_awaiting_no_key hmode
  · intro k hk hlow
    exact ⟨_, step_awaiting_key hmode hk hlow, fun r => s.readV_writeV x r _⟩

/-- Settles O49: the execute phase is one write of the mode, and the step before it only advances `pc`. -/
theorem waitForKeyOnlySetsTheMode : Obligations.WaitForKeyOnlySetsTheMode := by
  unfold Obligations.WaitForKeyOnlySetsTheMode
  exact fun x s => ⟨rfl, step_of_fetches⟩

end Sys2Proof.Machine
end


section
/-! PROOFS. The family Index and memory (spec/44_index_memory.md R171 to R175): the index register, and the transfers between
registers and memory. -/

namespace Sys2Proof.Machine

/-! ### The index register (R171, R172) -/

theorem indexOverflowFlag_eq_ite (a : Word) (b : Byte) :
    indexOverflowFlag a b = if 0x0FFF < a.toNat + b.toNat then 1 else 0 := by
  simp only [indexOverflowFlag, flagByte, decide_eq_true_eq, gt_iff_lt]

theorem exec_addI (x : Reg) (s : State) : exec (.addI x) s = .next (s.addIndex s.config.fx1eSetsVF x) := rfl

/-- What Fx1E leaves under either value of the parameter. -/
theorem addIndex_spec (s : State) (setsVF : Bool) (x : Reg) :
    (s.addIndex setsVF x).i = BitVec.ofNat 16 ((s.i.toNat + (s.readV x).toNat) % 65536) ∧
    (∀ k, (s.addIndex setsVF x).readV k =
      if setsVF = true ∧ k = VF then indexOverflowFlag s.i (s.readV x) else s.readV k) ∧
    s.addIndex setsVF x = { s with i := (s.addIndex setsVF x).i, v := (s.addIndex setsVF x).v } := by
  cases setsVF with
  | false => exact ⟨rfl, fun k => (if_neg (by simp)).symm, rfl⟩
  | true =>
    refine ⟨rfl, fun k => ?_, rfl⟩
    simp only [true_and]
    exact State.readV_writeV { s with i := _ } VF k _

/-- Settles O39: I is written for either parameter, and VF is written last when it is set. -/
theorem addIndexWrapsAndSetsVFOnlyByParameter : Obligations.AddIndexWrapsAndSetsVFOnlyByParameter := by
  unfold Obligations.AddIndexWrapsAndSetsVFOnlyByParameter
  intro x s
  obtain ⟨hi, hread, hframe⟩ := addIndex_spec s s.config.fx1eSetsVF x
  refine ⟨_, exec_addI x s, ?_, fun k => ?_, hframe⟩
  · rw [hi, BitVec.toNat_ofNat, Nat.mod_mod]
  · rw [hread, indexOverflowFlag_eq_ite]

theorem exec_ldF_of_digit {x : Reg} {s : State} (h : (s.readV x).toNat < 16) :
    exec (.ldF x) s = .next { s with i := glyphAddr (s.readV x) } := by
  simp only [exec, execLdF]
  rw [if_neg (by omega)]

theorem toNat_glyphAddr (d : Byte) : (glyphAddr d).toNat = 5 * d.toNat := by
  have hd := d.isLt
  rw [glyphAddr, BitVec.toNat_ofNat, Nat.zero_add]
  exact Nat.mod_eq_of_lt (show 5 * d.toNat < 65536 by omega)

/-- The glyph of the digit `d` lies at `5 * d` (R60). -/
theorem unlisted_glyph (font : FontRom) (d : Fin 16) (k : Fin 5) :
    unlisted font (5 * d.val + k.val) = (font.get d).get k := by
  have hd : (5 * d.val + k.val) / 5 = d.val := by
    rw [Nat.mul_add_div (by decide), Nat.div_eq_of_lt k.isLt, Nat.add_zero]
  have hk : (5 * d.val + k.val) % 5 = k.val := by
    rw [Nat.mul_add_mod, Nat.mod_eq_of_lt k.isLt]
  unfold unlisted
  rw [dif_pos (by simp only [Config.fontEnd]; omega)]
  simp only [hd, hk, Vector.get_eq_getElem]

/-- Settles O40: five times the digit is where its glyph lies in the font table. -/
theorem fontPointerReachesTheGlyph : Obligations.FontPointerReachesTheGlyph := by
  unfold Obligations.FontPointerReachesTheGlyph
  intro x s h
  refine ⟨_, exec_ldF_of_digit h, toNat_glyphAddr _, rfl, fun hfont k => ?_⟩
  rw [toNat_glyphAddr]
  exact (hfont _ (by simp only [Config.fontEnd]; omega)).trans (unlisted_glyph _ ⟨_, h⟩ k)

/-! ### Stores to writable memory (R173, R174) -/

/-- A store of bytes is a write of memory, with the bytes where `byteAt_storeBytes` says. -/
theorem writesMemory_of_exec_storeBytes {i : Instr} {s : State} {a : Nat} {bs : List Byte} {f : Nat → Byte}
    (h : exec i s = .next (s.storeBytes a bs)) (hf : ∀ b, (s.storeBytes a bs).byteAt b = f b) : WritesMemory i s f := by
  rw [State.storeBytes_eq] at h
  refine ⟨_, h, fun b => ?_⟩
  rw [← State.storeBytes_eq]
  exact hf b

theorem exec_ldB (x : Reg) (s : State) : exec (.ldB x) s =
    if s.i.toNat < 0x050 then .refused (.fontRegionWrite s.i.toNat)
    else if s.i.toNat + 3 ≤ 4096 then .next (s.storeBytes s.i.toNat (decimalDigits (s.readV x)))
    else .next { s with mode := .faulted (.outOfBounds (max s.i.toNat 4096)) } :=
  guarded_store s _ 3 (by decide)

theorem exec_ldMemVx (x : Reg) (s : State) : exec (.ldMemVx x) s =
    if s.i.toNat < 0x050 then .refused (.fontRegionWrite s.i.toNat)
    else if s.i.toNat + (x.val + 1) ≤ 4096 then .next (s.storeBytes s.i.toNat (s.regsUpTo x))
    else .next { s with mode := .faulted (.outOfBounds (max s.i.toNat 4096)) } :=
  guarded_store s _ (x.val + 1) x.val.succ_pos

theorem exec_ldB_inside {x : Reg} {s : State} (hlo : 0x050 ≤ s.i.toNat) (hhi : s.i.toNat + 3 ≤ 4096) :
    exec (.ldB x) s = .next (s.storeBytes s.i.toNat (decimalDigits (s.readV x))) := by
  rw [exec_ldB, if_neg (by omega), if_pos hhi]

theorem exec_ldMemVx_inside {x : Reg} {s : State} (hlo : 0x050 ≤ s.i.toNat) (hhi : s.i.toNat + x.val + 1 ≤ 4096) :
    exec (.ldMemVx x) s = .next (s.storeBytes s.i.toNat (s.regsUpTo x)) := by
  rw [exec_ldMemVx, if_neg (by omega), if_pos (by omega)]

/-- A byte after the three decimal digits went to `a`. -/
theorem byteAt_storeDigits (s : State) (d : Byte) (a b : Nat) : (s.storeBytes a (decimalDigits d)).byteAt b =
    if b = a then BitVec.ofNat 8 (d.toNat / 100)
    else if b = a + 1 then BitVec.ofNat 8 (d.toNat / 10 % 10)
    else if b = a + 2 then BitVec.ofNat 8 (d.toNat % 10)
    else s.byteAt b := by
  have hlen : (decimalDigits d).length = 3 := rfl
  rw [State.byteAt_storeBytes]
  by_cases h0 : b = a
  · subst h0
    rw [dif_pos (by omega), if_pos rfl]
    simp only [Nat.sub_self]
    rfl
  by_cases h1 : b = a + 1
  · subst h1
    rw [dif_pos (by omega), if_neg h0, if_pos rfl]
    simp only [Nat.add_sub_cancel_left]
    rfl
  by_cases h2 : b = a + 2
  · subst h2
    rw [dif_pos (by omega), if_neg h0, if_neg h1, if_pos rfl]
    simp only [Nat.add_sub_cancel_left]
    rfl
  · rw [dif_neg (by omega), if_neg h0, if_neg h1, if_neg h2]

/-- The byte at `I + k` after V0 to Vx went to I. -/
theorem byteAt_storeRegs {s : State} {x k : Reg} (hk : k.val ≤ x.val) :
    (s.storeBytes s.i.toNat (s.regsUpTo x)).byteAt (s.i.toNat + k.val) = s.readV k := by
  rw [State.byteAt_storeBytes, dif_pos (by rw [regsUpTo_length]; omega)]
  simp only [Nat.add_sub_cancel_left, regsUpTo_getElem, Fin.eta]

/-- Settles O41: the checks pass, and the three digits are stored. -/
theorem storeDecimalWritesThreeDigits : Obligations.StoreDecimalWritesThreeDigits := by
  unfold Obligations.StoreDecimalWritesThreeDigits
  exact fun x s hlo hhi => writesMemory_of_exec_storeBytes (exec_ldB_inside hlo hhi) (byteAt_storeDigits s _ _)

/-- Settles O42: the checks pass, and V0 to Vx are stored. -/
theorem storeRegistersWritesV0ToVx : Obligations.StoreRegistersWritesV0ToVx := by
  unfold Obligations.StoreRegistersWritesV0ToVx
  intro x s hlo hhi
  refine writesMemory_of_exec_storeBytes (exec_ldMemVx_inside hlo hhi) fun a => ?_
  split
  · next ha =>
    obtain ⟨k, rfl⟩ := Nat.exists_eq_add_of_le ha.1
    have hk : k < 16 := by have hx := x.isLt; omega
    have hkx : k ≤ x.val := by omega
    have hreg : Fin.ofNat 16 (s.i.toNat + k - s.i.toNat) = ⟨k, hk⟩ :=
      Fin.ext (by rw [Nat.add_sub_cancel_left]; exact Nat.mod_eq_of_lt hk)
    rw [hreg]
    exact byteAt_storeRegs (k := ⟨k, hk⟩) hkx
  · next ha => rw [State.byteAt_storeBytes, dif_neg (by rw [regsUpTo_length]; omega)]

/-! ### Loads (R175) -/

/-- A register after `n` bytes from `a` went into the registers from V0 on. -/
theorem fillRegs_bytesFrom (s : State) (a n : Nat) (k : Reg) :
    (fillRegs s.v 0 (s.bytesFrom a n)).get k = if k.val < n then s.byteAt (a + k.val) else s.readV k := by
  rw [fillRegs_get]
  by_cases hk : k.val < n
  · rw [dif_pos (by rw [bytesFrom_length]; omega), if_pos hk, bytesFrom_getElem, Nat.sub_zero]
  · rw [dif_neg (by rw [bytesFrom_length]; omega), if_neg hk, State.readV]

theorem exec_ldVxMem_inside {x : Reg} {s : State} (h : s.i.toNat + x.val + 1 ≤ 4096) :
    exec (.ldVxMem x) s = .next { s with v := fillRegs s.v 0 (s.bytesFrom s.i.toNat (x.val + 1)) } := by
  rw [exec_ldVxMem, if_pos h]

/-- Settles O43: the checks pass, and the bytes from I on fill V0 to Vx. -/
theorem loadRegistersReadsV0ToVx : Obligations.LoadRegistersReadsV0ToVx := by
  unfold Obligations.LoadRegistersReadsV0ToVx
  intro x s h
  refine ⟨_, exec_ldVxMem_inside h, fun k => ?_⟩
  simp only [fillRegs_bytesFrom, Nat.lt_succ_iff]

/-! ### Accesses past the end of memory (R51, R52) -/

/-- Settles O44: each check finds the first address of 4096 or more. -/
theorem accessesPastMemoryRaiseOutOfBounds : Obligations.AccessesPastMemoryRaiseOutOfBounds := by
  unfold Obligations.AccessesPastMemoryRaiseOutOfBounds
  intro x y n s t ht
  have haddr : (if 4096 ≤ s.i.toNat then s.i.toNat else 4096) = max s.i.toNat 4096 := by
    split
    · next h => exact (Nat.max_eq_left h).symm
    · next h => exact (Nat.max_eq_right (Nat.le_of_not_le h)).symm
  rw [haddr] at ht
  subst ht
  refine ⟨fun hn hpast => ?_, fun hlo hpast => ?_, fun hlo hpast => ?_, fun hpast => ?_⟩
  · rw [exec_drw, if_neg (by omega)]
  · rw [exec_ldB, if_neg (by omega), if_neg (by omega)]
  · rw [exec_ldMemVx, if_neg (by omega), if_neg (by omega)]
  · rw [exec_ldVxMem, if_neg (by omega)]

/-! ### After a store -/

/-- Settles O45: I still points at the stored registers, and the load reads them in the same order. -/
theorem loadAfterStoreRestoresRegisters : Obligations.LoadAfterStoreRestoresRegisters := by
  unfold Obligations.LoadAfterStoreRestoresRegisters
  intro x s t u hlo hhi hstore hi hmem
  cases (exec_ldMemVx_inside hlo hhi).symm.trans hstore
  rw [State.storeBytes_i] at hi
  refine ⟨_, exec_ldVxMem_inside (hi ▸ hhi), fun k => ?_⟩
  rw [State.readV, fillRegs_bytesFrom, hi, hmem]
  simp only [Nat.lt_succ_iff]
  split
  · next hk => exact byteAt_storeRegs hk
  · rfl

/-- Settles O46: the bytes at `pc` are two neighbouring stored registers, the first the high byte of the word. -/
theorem fetchSeesStoredBytes : Obligations.FetchSeesStoredBytes := by
  unfold Obligations.FetchSeesStoredBytes
  intro x s t u k hk hlo hhi hstore hmem hpc
  cases (exec_ldMemVx_inside hlo hhi).symm.trans hstore
  refine ⟨by omega, ?_, ?_⟩
  · rw [hpc, hmem]
    exact (byteAt_storeRegs (k := ⟨k, by omega⟩) hk.le).trans (hiByte_wordOfBytes ..).symm
  · rw [hpc, hmem, Nat.add_assoc]
    exact (byteAt_storeRegs (k := ⟨k + 1, by omega⟩) hk).trans (loByte_wordOfBytes ..).symm

end Sys2Proof.Machine
end


section
/-! PROOFS. The host's operations (spec/40_interpreter_loop.md R97 to R102, spec/70_reset_and_hazards.md R240): what each call
does, and runs of calls. -/

namespace Sys2Proof.Machine

/-! ### `tick()` (R97, R29) -/

theorem toNat_tickTimer (b : Byte) : (tickTimer b).toNat = b.toNat - 1 := by
  unfold tickTimer
  split
  · next h => exact BitVec.toNat_sub_of_le (BitVec.le_def.mpr h)
  · next h => rw [Nat.eq_zero_of_not_pos h]

/-- One timer above 0 goes down by one, and a timer at 0 stays there. -/
theorem tickTimer_spec (b : Byte) : if 0 < b.toNat then (tickTimer b).toNat + 1 = b.toNat else tickTimer b = 0 := by
  split
  · rw [toNat_tickTimer]; omega
  · apply BitVec.eq_of_toNat_eq
    exact (toNat_tickTimer b).trans (Nat.sub_eq_zero_of_le (by omega))

theorem hostCall_tick (s : State) : hostCall .tick s = .next (tick s, .ok) := rfl

/-- Settles O15: `tick()` applies `tickTimer` to both timers. -/
theorem tickDecrementsEachTimerAboveZero : Obligations.TickDecrementsEachTimerAboveZero := by
  unfold Obligations.TickDecrementsEachTimerAboveZero
  exact fun s => ⟨tick s, hostCall_tick s, rfl, tickTimer_spec s.dt, tickTimer_spec s.st⟩

/-- Settles O16, by induction on the number of ticks. -/
theorem ticksCountTimersDownToZero : Obligations.TicksCountTimersDownToZero := by
  unfold Obligations.TicksCountTimersDownToZero
  intro n
  induction n with
  | zero => exact fun s => ⟨s, rfl, rfl, rfl, rfl⟩
  | succ n ih =>
    intro s
    obtain ⟨t, hrun, heq, hdt, hst⟩ := ih (tick s)
    have hcount (b : Byte) : (tickTimer b).toNat - n = b.toNat - (n + 1) := by
      rw [toNat_tickTimer, Nat.sub_sub, Nat.add_comm]
    exact ⟨t, (runHost_cons _ (hostCall_tick s)).trans hrun, heq, hdt.trans (hcount s.dt), hst.trans (hcount s.st)⟩

/-! ### `set_key` and `load_program` (R98, R99) -/

theorem hostCall_setKey (k : Fin 16) (pressed : Bool) (s : State) :
    hostCall (.setKey k pressed) s = .next (setKey k pressed s, .ok) := rfl

/-- Settles O17: one entry of the key vector is written. -/
theorem setKeyWritesOneKey : Obligations.SetKeyWritesOneKey := by
  unfold Obligations.SetKeyWritesOneKey
  exact fun s k pressed => ⟨_, hostCall_setKey k pressed s, fun j => get_set s.key k j pressed⟩

/-- Settles O18: the two answers of `load_program`, and where a store of consecutive bytes puts them. -/
theorem loadProgramWritesTheImageOrNothing : Obligations.LoadProgramWritesTheImageOrNothing := by
  unfold Obligations.LoadProgramWritesTheImageOrNothing
  intro bytes s
  obtain ⟨hfit, hcall⟩ | ⟨hlarge, hcall⟩ := hostCall_loadProgram bytes s
  · refine ⟨fun _ => ⟨(s.storeBytes 0x200 bytes).mem, ?_, fun k hk => ?_, fun a ha => ?_⟩, fun h => absurd h (by omega)⟩
    · rw [hcall, ← s.storeBytes_eq]
    · rw [← s.storeBytes_eq, State.byteAt_storeBytes, dif_pos (by omega)]
      simp only [Nat.add_sub_cancel_left]
    · rw [← s.storeBytes_eq, State.byteAt_storeBytes, dif_neg (by omega)]
  · exact ⟨fun h => absurd h (by omega), fun _ => hcall⟩

/-! ### `reset()` (R240, R38) -/

theorem hostCall_reset (s : State) : hostCall .reset s = .next (resetMachine s, .ok) := rfl

/-- Memory reads, after reset, as nothing were listed. -/
theorem byteAt_resetMachine (s : State) (a : Nat) : (resetMachine s).byteAt a = unlisted s.config.fontRom a := rfl

theorem unlisted_above_font (font : FontRom) {a : Nat} (ha : 0x050 ≤ a) : unlisted font a = 0 :=
  dif_neg (by simp only [Config.fontEnd]; omega)

/-- Settles O20: the reset state's fields, and memory with nothing listed. -/
theorem resetGivesTheResetStateFromAnyState : Obligations.ResetGivesTheResetStateFromAnyState := by
  unfold Obligations.ResetGivesTheResetStateFromAnyState
  intro s
  refine ⟨resetMachine s, hostCall_reset s, Vector.get_replicate 16 0, rfl, rfl, Vector.get_replicate 16 0, rfl, rfl, rfl,
    Vector.get_replicate 16 false, pixel_clear, rfl, rfl, fun d k => ?_, fun a ha _ => ?_⟩
  · exact (byteAt_resetMachine s _).trans (unlisted_glyph s.config.fontRom d k)
  · exact (byteAt_resetMachine s a).trans (unlisted_above_font s.config.fontRom ha)

/-! ### A faulted machine (R96, R215) -/

/-- The mode and what a program computes with, memory and timers apart, are the same. -/
def SameProgress (s t : State) : Prop :=
  t.mode = s.mode ∧ t.v = s.v ∧ t.i = s.i ∧ t.pc = s.pc ∧ t.stack = s.stack ∧ t.sp = s.sp ∧ t.grid = s.grid

theorem SameProgress.refl (s : State) : SameProgress s s := ⟨rfl, rfl, rfl, rfl, rfl, rfl, rfl⟩

theorem SameProgress.trans {s t u : State} (h : SameProgress s t) (h' : SameProgress t u) : SameProgress s u := by
  obtain ⟨hmode, hv, hi, hpc, hstack, hsp, hgrid⟩ := h
  obtain ⟨hmode', hv', hi', hpc', hstack', hsp', hgrid'⟩ := h'
  exact ⟨hmode'.trans hmode, hv'.trans hv, hi'.trans hi, hpc'.trans hpc, hstack'.trans hstack, hsp'.trans hsp,
    hgrid'.trans hgrid⟩

theorem sameProgress_storeBytes (s : State) (a : Nat) (bs : List Byte) : SameProgress s (s.storeBytes a bs) :=
  ⟨s.storeBytes_mode a bs, s.storeBytes_v a bs, s.storeBytes_i a bs, s.storeBytes_pc a bs, s.storeBytes_stack a bs,
    s.storeBytes_sp a bs, s.storeBytes_grid a bs⟩

/-- In mode Faulted every call but `reset()` completes and leaves the progress as it is. -/
theorem hostCall_of_faulted {s : State} {e : Fault} {c : HostCall} (hmode : s.mode = .faulted e) (hc : c ≠ .reset) :
    ∃ t r, hostCall c s = .next (t, r) ∧ SameProgress s t := by
  cases c with
  | reset => exact absurd rfl hc
  | loadProgram bytes =>
    obtain ⟨-, h⟩ | ⟨-, h⟩ := hostCall_loadProgram bytes s
    · exact ⟨_, _, h, sameProgress_storeBytes s _ bytes⟩
    · exact ⟨_, _, h, .refl s⟩
  | step => exact ⟨_, _, hostCall_step_next (step_faulted hmode), .refl s⟩
  | tick => exact ⟨_, _, hostCall_tick s, .refl s⟩
  | setKey k pressed => exact ⟨_, _, hostCall_setKey k pressed s, .refl s⟩
  | pixelGrid => exact ⟨_, _, hostCall_pixelGrid s, .refl s⟩
  | soundActive => exact ⟨_, _, hostCall_soundActive s, .refl s⟩

theorem runHost_of_faulted {cs : List HostCall} {s : State} {e : Fault} (hmode : s.mode = .faulted e)
    (hcs : HostCall.reset ∉ cs) : ∃ t, runHost cs s = .next t ∧ SameProgress s t := by
  induction cs generalizing s with
  | nil => exact ⟨s, rfl, .refl s⟩
  | cons c cs ih =>
    rw [List.mem_cons, not_or] at hcs
    obtain ⟨hc, hcs⟩ := hcs
    obtain ⟨t, r, hcall, hst⟩ := hostCall_of_faulted hmode (Ne.symm hc)
    obtain ⟨u, hrun, htu⟩ := ih (hst.1.trans hmode) hcs
    exact ⟨u, (runHost_cons cs hcall).trans hrun, hst.trans htu⟩

/-- Settles O8: a step in mode Faulted is the identity, and each call but `reset()` keeps the progress, so by induction a run
without `reset()` does. -/
theorem onlyResetLeavesFaulted : Obligations.OnlyResetLeavesFaulted := by
  unfold Obligations.OnlyResetLeavesFaulted
  intro s e hmode
  have hstep := step_faulted hmode
  refine ⟨hstep, hostCall_step_of_faulted hstep hmode, fun cs hcs => ?_⟩
  obtain ⟨t, hrun, htmode, hrest⟩ := runHost_of_faulted hmode hcs
  exact ⟨t, hrun, htmode.trans hmode, hrest⟩

/-! ### The key wait over a run (R246) -/

/-- Settles O10, by induction on the calls: without a key a step is the identity, and a tick keeps the mode and the keys. -/
theorem keyWaitLastsWhileNoKeyIsPressed : Obligations.KeyWaitLastsWhileNoKeyIsPressed := by
  unfold Obligations.KeyWaitLastsWhileNoKeyIsPressed
  intro cs
  induction cs with
  | nil => exact fun s x _ _ _ => ⟨s, rfl, rfl⟩
  | cons c cs ih =>
    intro s x hmode hkeys hcs
    rw [List.forall_mem_cons] at hcs
    obtain ⟨rfl | rfl, hcs⟩ := hcs
    · obtain ⟨t, hrun, ht⟩ := ih s x hmode hkeys hcs
      have hcall := hostCall_step_next (step_awaiting_no_key hmode hkeys)
      exact ⟨t, (runHost_cons cs hcall).trans hrun, ht⟩
    · obtain ⟨t, hrun, ht⟩ := ih (tick s) x hmode hkeys hcs
      exact ⟨t, (runHost_cons cs (hostCall_tick s)).trans hrun, ht⟩

/-! ### Safe runs -/

/-- A call of `step()` that answers ran the step, and its reply is the step's. -/
theorem step_of_hostCall_step {s t : State} {r : Reply} (hcall : hostCall .step s = .next (t, r)) :
    step s = .next t ∧ r = replyOf (stepReply t) := by
  simp only [hostCall] at hcall
  cases hstep : step s with
  | next u => rw [hstep] at hcall; cases hcall; exact ⟨rfl, rfl⟩
  | fault e => rw [hstep] at hcall; cases hcall
  | refused e => rw [hstep] at hcall; cases hcall

/-- The reply of a step that halts is its error. -/
theorem not_faulted_of_reply {t : State} (h : (replyOf (stepReply t)).isErr = false) (e : Fault) : t.mode ≠ .faulted e := by
  intro hmode
  rw [stepReply, hmode] at h
  cases h

/-- A call that returns no error leaves a machine that is not halted, if it was not. -/
theorem hostCall_keeps_not_faulted {c : HostCall} {s t : State} {r : Reply} (hs : ∀ e, s.mode ≠ .faulted e)
    (hcall : hostCall c s = .next (t, r)) (hr : r.isErr = false) (e : Fault) : t.mode ≠ .faulted e := by
  cases c with
  | reset => cases hcall; simp [resetMachine, State.resetWith]
  | loadProgram bytes =>
    obtain ⟨-, h⟩ | ⟨-, h⟩ := hostCall_loadProgram bytes s
    · cases h.symm.trans hcall
      exact s.storeBytes_mode 0x200 bytes ▸ hs e
    · cases h.symm.trans hcall; exact hs e
  | step =>
    obtain ⟨-, rfl⟩ := step_of_hostCall_step hcall
    exact not_faulted_of_reply hr e
  | tick => cases hcall; exact hs e
  | setKey k pressed => cases hcall; exact hs e
  | pixelGrid => cases hcall; exact hs e
  | soundActive => cases hcall; exact hs e

/-- Settles O59, by induction on the calls. -/
theorem safeRunsCompleteWithoutHalting : Obligations.SafeRunsCompleteWithoutHalting := by
  unfold Obligations.SafeRunsCompleteWithoutHalting
  intro cs
  induction cs with
  | nil => rintro s t hs rfl; exact ⟨rfl, hs⟩
  | cons c cs ih =>
    rintro s t hs ⟨u, r, hcall, hr, hsafe⟩
    rw [runHost_cons cs hcall]
    exact ih u t (hostCall_keeps_not_faulted hs hcall hr) hsafe

end Sys2Proof.Machine
end


section
/-! PROOFS. What an execute phase that answers a next state can have done, said once for all 35 instructions (`Effect`), with
what it leaves unchanged (spec/10_state.md R34, R35). -/

namespace Sys2Proof.Machine

/-- What data an instruction may have written: registers, the draw counter, the grid, I and the timers, each only by the
instructions whose row of R35 names it. -/
def DataEffect (i : Instr) (s t : State) : Prop :=
  ∃ v' n g a dt st, (∀ k, writesReg i k = false → v'.get k = s.readV k) ∧
    (g = s.grid ∨ i = .cls ∨ ∃ x y n, i = .drw x y n) ∧
    (a = s.i ∨ (∃ nnn, i = .ldI nnn) ∨ ∃ x, i = .addI x ∨ i = .ldF x) ∧
    (dt = s.dt ∨ ∃ x, i = .ldDtVx x) ∧ (st = s.st ∨ ∃ x, i = .ldStVx x) ∧
    t = { s with v := v', draws := n, grid := g, i := a, dt := dt, st := st }

/-- How an instruction may have moved `pc`, the stack and `sp`: a jump or a taken skip, a CALL with room, a RET with a live
entry. -/
def ControlEffect (i : Instr) (s t : State) : Prop :=
  ∃ a stack sp, ((writesPc i = true ∧ (a.toNat ≤ 0x10FE ∨ a = s.pc + 2) ∧ stack = s.stack ∧ sp = s.sp) ∨
      (∃ nnn, i = .call nnn ∧ a = zextAddr nnn ∧ ∃ h : s.sp.val < 16, stack = s.stack.set s.sp.val s.pc ∧
        sp = ⟨s.sp.val + 1, by omega⟩) ∨
      (i = .ret ∧ stack = s.stack ∧ ∃ h : s.sp.val ≠ 0, a = s.stack[s.sp.val - 1]'(by omega) ∧
        sp = ⟨s.sp.val - 1, by omega⟩)) ∧
    t = { s with pc := a, stack := stack, sp := sp }

/-- What an execute phase may have done when it answers `t`: written data, transferred control, begun the key wait, stored
bytes from I on above the font table and inside memory, or taken an error. -/
def Effect (i : Instr) (s t : State) : Prop :=
  DataEffect i s t ∨ ControlEffect i s t ∨ (∃ x, i = .ldVxK x ∧ t = { s with mode := .awaitingKey x }) ∨
  (∃ bs, bs.length = storedBytes i ∧ 0x050 ≤ s.i.toNat ∧ s.i.toNat + bs.length ≤ 4096 ∧
    t = s.storeBytes s.i.toNat bs) ∨
  ∃ e, e ≠ .programTooLarge ∧ t = { s with mode := .faulted e }

variable {i : Instr} {s t : State}

/-! #### Each shape of an execute phase is an effect -/

theorem Effect.registers {v' : Vector Byte 16} {n : Nat} (hv : ∀ k, writesReg i k = false → v'.get k = s.readV k) :
    Effect i s { s with v := v', draws := n } :=
  .inl ⟨v', n, s.grid, s.i, s.dt, s.st, hv, .inl rfl, .inl rfl, .inl rfl, .inl rfl, rfl⟩

theorem Effect.unchanged : Effect i s s := .registers fun _ _ => rfl

theorem Effect.grid {g : Grid} {v' : Vector Byte 16} (hi : i = .cls ∨ ∃ x y n, i = .drw x y n)
    (hv : ∀ k, writesReg i k = false → v'.get k = s.readV k) : Effect i s { s with grid := g, v := v' } :=
  .inl ⟨v', s.draws, g, s.i, s.dt, s.st, hv, .inr hi, .inl rfl, .inl rfl, .inl rfl, rfl⟩

theorem Effect.index {a : Word} {v' : Vector Byte 16} (hi : (∃ nnn, i = .ldI nnn) ∨ ∃ x, i = .addI x ∨ i = .ldF x)
    (hv : ∀ k, writesReg i k = false → v'.get k = s.readV k) : Effect i s { s with i := a, v := v' } :=
  .inl ⟨v', s.draws, s.grid, a, s.dt, s.st, hv, .inl rfl, .inr hi, .inl rfl, .inl rfl, rfl⟩

theorem Effect.delay {x : Reg} {b : Byte} : Effect (.ldDtVx x) s { s with dt := b } :=
  .inl ⟨s.v, s.draws, s.grid, s.i, b, s.st, fun _ _ => rfl, .inl rfl, .inl rfl, .inr ⟨x, rfl⟩, .inl rfl, rfl⟩

theorem Effect.sound {x : Reg} {b : Byte} : Effect (.ldStVx x) s { s with st := b } :=
  .inl ⟨s.v, s.draws, s.grid, s.i, s.dt, b, fun _ _ => rfl, .inl rfl, .inl rfl, .inl rfl, .inr ⟨x, rfl⟩, rfl⟩

theorem Effect.goto {a : Word} (hi : writesPc i = true) (ha : a.toNat ≤ 0x10FE ∨ a = s.pc + 2) :
    Effect i s { s with pc := a } :=
  .inr (.inl ⟨a, s.stack, s.sp, .inl ⟨hi, ha, rfl, rfl⟩, rfl⟩)

theorem Effect.halt {e : Fault} (he : e ≠ .programTooLarge) : Effect i s { s with mode := .faulted e } :=
  .inr (.inr (.inr (.inr ⟨e, he, rfl⟩)))

/-- A register other than one the instruction may write. -/
theorem get_set_of_not_writesReg {x k : Reg} {v : Vector Byte 16} (b : Byte) (hx : writesReg i x = true)
    (hk : writesReg i k = false) : (v.set x.val b).get k = v.get k := by
  rw [get_set, if_neg]
  rintro rfl
  exact absurd (hx.symm.trans hk) (by decide)

theorem Effect.writeV {x : Reg} {b : Byte} (hx : writesReg i x = true) : Effect i s (s.writeV x b) :=
  .registers fun _ hk => get_set_of_not_writesReg b hx hk

theorem Effect.writeWithFlag {x : Reg} {b g : Byte} (hx : writesReg i x = true) (hf : writesReg i VF = true) :
    Effect i s (s.writeWithFlag x b g) :=
  .registers fun _ hk => (get_set_of_not_writesReg g hf hk).trans (get_set_of_not_writesReg b hx hk)

theorem Effect.skipIf {c : Bool} (hi : writesPc i = true) : Effect i s (s.skipIf c) := by
  cases c with
  | false => exact .unchanged
  | true => exact .goto hi (.inr rfl)

/-- A completed execute phase of a key skip. -/
theorem Effect.skipOnKey {want : Bool} {x : Reg} (hi : writesPc i = true) (h : skipOnKey want x s = .next t) :
    Effect i s t := by
  unfold Machine.skipOnKey at h
  split at h
  · cases h
  · cases h; exact .skipIf hi

/-- A completed execute phase of a store of `bs` from I. -/
theorem Effect.guardedStore {bs : List Byte} (hlen : bs.length = storedBytes i) (hpos : 0 < bs.length)
    (h : guarded (s.firstStop writeStop bs.length) s (s.storeBytes s.i.toNat bs) = .next t) : Effect i s t := by
  rw [guarded_store s _ _ hpos] at h
  split at h
  · cases h
  · split at h
    · cases h; exact .inr (.inr (.inr (.inl ⟨bs, hlen, by omega, by omega, rfl⟩)))
    · cases h; exact .halt (by simp)

theorem toNat_zextByte (b : Byte) : (zextByte b).toNat = b.toNat :=
  BitVec.toNat_setWidth_of_le (by decide)

/-- The sum of an address and a byte fits 16 bits (R118). -/
theorem toNat_offsetTarget (s : State) (nnn : Addr) : (s.offsetTarget nnn).toNat = nnn.toNat + (s.readV 0).toNat := by
  have hn := nnn.isLt
  have hb := (s.readV 0).isLt
  rw [State.offsetTarget, BitVec.toNat_add, toNat_zextAddr, toNat_zextByte]
  exact Nat.mod_eq_of_lt (by omega)

theorem toNat_offsetTarget_le (s : State) (nnn : Addr) : (s.offsetTarget nnn).toNat ≤ 0x10FE := by
  have hn := nnn.isLt
  have hb := (s.readV 0).isLt
  rw [toNat_offsetTarget]
  omega

theorem toNat_zextAddr_le (nnn : Addr) : (zextAddr nnn).toNat ≤ 0x10FE := by
  have hn := nnn.isLt
  rw [toNat_zextAddr]
  omega

/-- Every next state of an execute phase is one of the effects of its instruction. -/
theorem exec_effect (h : exec i s = .next t) : Effect i s t := by
  cases i with
  | nop => cases h; exact .unchanged
  | cls => cases h; exact .grid (.inl rfl) fun _ _ => rfl
  | ret =>
    rw [exec_ret] at h
    split at h
    · cases h; exact .halt (by simp)
    · next hsp => cases h; exact .inr (.inl ⟨_, _, _, .inr (.inr ⟨rfl, rfl, hsp, rfl, rfl⟩), rfl⟩)
  | call nnn =>
    rw [exec_call] at h
    split at h
    · next hsp => cases h; exact .inr (.inl ⟨_, _, _, .inr (.inl ⟨nnn, rfl, rfl, hsp, rfl, rfl⟩), rfl⟩)
    · cases h; exact .halt (by simp)
  | jp nnn => cases h; exact .goto rfl (.inl (toNat_zextAddr_le nnn))
  | jpV0 nnn => cases h; exact .goto rfl (.inl (toNat_offsetTarget_le s nnn))
  | seImm | sneImm | seReg | sneReg => cases h; exact .skipIf rfl
  | skp | sknp => exact .skipOnKey rfl h
  | ldImm | addImm | ldReg | orReg | andReg | xorReg | ldVxDt => cases h; exact .writeV (beq_self_eq_true _)
  | addReg | sub | shr | subn | shl =>
    cases h; exact .writeWithFlag (Bool.or_inl (beq_self_eq_true _)) (Bool.or_inr (beq_self_eq_true _))
  | rnd x nn => cases h; exact .registers fun k hk => get_set_of_not_writesReg _ (beq_self_eq_true _) hk
  | drw x y n =>
    rw [exec_drw] at h
    split at h
    · cases h; exact .grid (.inr ⟨x, y, n, rfl⟩) fun k hk => get_set_of_not_writesReg _ (beq_self_eq_true _) hk
    · cases h; exact .halt (by simp)
  | ldI nnn => cases h; exact .index (.inl ⟨nnn, rfl⟩) fun _ _ => rfl
  | addI x =>
    cases h
    unfold State.addIndex
    split
    · exact .index (.inr ⟨x, .inl rfl⟩) fun k hk => get_set_of_not_writesReg _ (beq_self_eq_true _) hk
    · exact .index (.inr ⟨x, .inl rfl⟩) fun _ _ => rfl
  | ldF x =>
    simp only [exec, execLdF] at h
    split at h
    · cases h
    · cases h; exact .index (.inr ⟨x, .inr rfl⟩) fun _ _ => rfl
  | ldVxK x => cases h; exact .inr (.inr (.inl ⟨x, rfl, rfl⟩))
  | ldDtVx x => cases h; exact .delay
  | ldStVx x => cases h; exact .sound
  | ldB x => exact .guardedStore (bs := decimalDigits (s.readV x)) rfl (Nat.zero_lt_succ _) h
  | ldMemVx x => exact .guardedStore (regsUpTo_length s x) (by simp) (by rw [regsUpTo_length]; exact h)
  | ldVxMem x =>
    rw [exec_ldVxMem] at h
    split at h
    · cases h
      refine .registers fun k hk => ?_
      have hk : ¬ k.val ≤ x.val := of_decide_eq_false hk
      rw [fillRegs_get, dif_neg (by rw [bytesFrom_length]; omega), State.readV]
    · cases h; exact .halt (by simp)

theorem Effect.key_config_eq (h : Effect i s t) : t.key = s.key ∧ t.config = s.config := by
  obtain ⟨v', n, g, a, dt, st, -, -, -, -, -, rfl⟩ | ⟨a, stack, sp, -, rfl⟩ | ⟨x, -, rfl⟩ | ⟨bs, -, -, -, rfl⟩ |
    ⟨e, -, rfl⟩ := h
  case inr.inr.inr.inl => exact ⟨s.storeBytes_key _ bs, s.storeBytes_config _ bs⟩
  all_goals exact ⟨rfl, rfl⟩

/-- An execute phase changes the mode only to wait for a key or to halt (R32, R193). -/
theorem Effect.mode_cases (h : Effect i s t) :
    t.mode = s.mode ∨ (∃ x, i = .ldVxK x ∧ t.mode = .awaitingKey x) ∨ ∃ e, t.mode = .faulted e := by
  obtain ⟨v', n, g, a, dt, st, -, -, -, -, -, rfl⟩ | ⟨a, stack, sp, -, rfl⟩ | ⟨x, hi, rfl⟩ | ⟨bs, -, -, -, rfl⟩ |
    ⟨e, -, rfl⟩ := h
  · exact .inl rfl
  · exact .inl rfl
  · exact .inr (.inl ⟨x, hi, rfl⟩)
  · exact .inl (s.storeBytes_mode _ bs)
  · exact .inr (.inr ⟨e, rfl⟩)

end Sys2Proof.Machine
end


section
/-! PROOFS. The frames (spec/10_state.md R35): each says which effects write a part of the state. -/

namespace Sys2Proof.Machine

/-- Settles O50: the effects that write registers keep those outside the written set, and the others write none. -/
theorem onlyDestinationRegistersChange : Obligations.OnlyDestinationRegistersChange := by
  unfold Obligations.OnlyDestinationRegistersChange
  intro i s t k h hk
  obtain ⟨v', n, g, a, dt, st, hv, -, -, -, -, rfl⟩ | ⟨a, stack, sp, -, rfl⟩ | ⟨x, -, rfl⟩ | ⟨bs, -, -, -, rfl⟩ |
    ⟨e, -, rfl⟩ := exec_effect h
  case inl => exact hv k hk
  case inr.inr.inr.inl => exact congrArg (·.get k) (s.storeBytes_v _ bs)
  all_goals rfl

/-- Settles O51: only a store writes memory, and where its bytes lie is `byteAt_storeBytes`. -/
theorem onlyStoredBytesChange : Obligations.OnlyStoredBytesChange := by
  unfold Obligations.OnlyStoredBytesChange
  intro i s t h a ha
  obtain ⟨v', n, g, i', dt, st, -, -, -, -, -, rfl⟩ | ⟨pc, stack, sp, -, rfl⟩ | ⟨x, -, rfl⟩ | ⟨bs, hlen, -, -, rfl⟩ |
    ⟨e, -, rfl⟩ := exec_effect h
  case inr.inr.inr.inl => rw [State.byteAt_storeBytes, dif_neg (by omega)]
  all_goals rfl

/-- Settles O52: the effects that write `pc` are those of control transfers. -/
theorem onlyControlTransfersWritePc : Obligations.OnlyControlTransfersWritePc := by
  unfold Obligations.OnlyControlTransfersWritePc
  intro i s t h hi
  obtain ⟨v', n, g, a, dt, st, -, -, -, -, -, rfl⟩ | ⟨a, stack, sp, hc, rfl⟩ | ⟨x, -, rfl⟩ | ⟨bs, -, -, -, rfl⟩ |
    ⟨e, -, rfl⟩ := exec_effect h
  case inr.inl =>
    obtain ⟨hpc, -⟩ | ⟨nnn, rfl, -⟩ | ⟨rfl, -⟩ := hc
    · exact absurd (hpc.symm.trans hi) (by decide)
    · cases hi
    · cases hi
  case inr.inr.inr.inl => exact s.storeBytes_pc _ bs
  all_goals rfl

/-- Settles O53: the effects that write the stack or `sp` are those of CALL and RET. -/
theorem onlyCallAndReturnTouchTheStack : Obligations.OnlyCallAndReturnTouchTheStack := by
  unfold Obligations.OnlyCallAndReturnTouchTheStack
  intro i s t h hret hcall
  obtain ⟨v', n, g, a, dt, st, -, -, -, -, -, rfl⟩ | ⟨a, stack, sp, hc, rfl⟩ | ⟨x, -, rfl⟩ | ⟨bs, -, -, -, rfl⟩ |
    ⟨e, -, rfl⟩ := exec_effect h
  case inr.inl =>
    obtain ⟨-, -, hstack, hsp⟩ | ⟨nnn, hi, -⟩ | ⟨hi, -⟩ := hc
    · exact ⟨hstack, hsp⟩
    · exact absurd hi (hcall nnn)
    · exact absurd hi hret
  case inr.inr.inr.inl => exact ⟨s.storeBytes_stack _ bs, s.storeBytes_sp _ bs⟩
  all_goals exact ⟨rfl, rfl⟩

/-- Settles O54: each of the four has one effect that writes it, which names its instructions. -/
theorem gridIndexAndTimersChangeOnlyByTheirInstructions :
    Obligations.GridIndexAndTimersChangeOnlyByTheirInstructions := by
  unfold Obligations.GridIndexAndTimersChangeOnlyByTheirInstructions
  intro i s t h
  obtain ⟨v', n, g, a, dt, st, -, hg, hi, hdt, hst, rfl⟩ | ⟨a, stack, sp, -, rfl⟩ | ⟨x, -, rfl⟩ | ⟨bs, -, -, -, rfl⟩ |
    ⟨e, -, rfl⟩ := exec_effect h
  case inl => exact ⟨hg, hi, hdt, hst⟩
  case inr.inr.inr.inl =>
    exact ⟨.inl (s.storeBytes_grid _ bs), .inl (s.storeBytes_i _ bs), .inl (s.storeBytes_dt _ bs),
      .inl (s.storeBytes_st _ bs)⟩
  all_goals exact ⟨.inl rfl, .inl rfl, .inl rfl, .inl rfl⟩

/-- A poll of the key vector either does nothing, or writes a register and sets mode Running (R95). -/
theorem pollKeys_cases (x : Reg) (s : State) :
    pollKeys x s = s ∨ ∃ b, pollKeys x s = { s.writeV x b with mode := .running } := by
  unfold pollKeys
  split
  · exact .inr ⟨_, rfl⟩
  · exact .inl rfl

/-- Settles O55: by the mode, and in mode Running by what the step did; an execute phase by its effect. -/
theorem keysStayAndModeChangesOnlyByWaitOrError : Obligations.KeysStayAndModeChangesOnlyByWaitOrError := by
  unfold Obligations.KeysStayAndModeChangesOnlyByWaitOrError
  intro s t hstep
  cases hmode : s.mode with
  | running =>
    obtain ⟨-, hs⟩ | ⟨op, -, -, hs⟩ | ⟨i, hfetch, hs⟩ := step_running_cases hmode
    · cases hs.symm.trans hstep
      exact ⟨rfl, rfl, .inr (.inr ⟨rfl, .inr ⟨_, rfl⟩⟩)⟩
    · cases hs.symm.trans hstep
      exact ⟨rfl, rfl, .inr (.inr ⟨rfl, .inr ⟨_, rfl⟩⟩)⟩
    · have heff := exec_effect (hs.symm.trans hstep)
      obtain ⟨hkey, hconfig⟩ := heff.key_config_eq
      refine ⟨hkey, hconfig, ?_⟩
      obtain hsame | ⟨x, rfl, hwait⟩ | hhalt := heff.mode_cases
      · exact .inl (hsame.trans hmode)
      · exact .inr (.inr ⟨rfl, .inl ⟨x, hfetch, hwait⟩⟩)
      · exact .inr (.inr ⟨rfl, .inr hhalt⟩)
  | awaitingKey x =>
    cases (step_awaiting hmode).symm.trans hstep
    obtain hp | ⟨b, hp⟩ := pollKeys_cases x s
    · rw [hp]; exact ⟨rfl, rfl, .inl hmode⟩
    · rw [hp]; exact ⟨rfl, rfl, .inr (.inl ⟨x, rfl, rfl⟩)⟩
  | faulted e =>
    cases (step_faulted hmode).symm.trans hstep
    exact ⟨rfl, rfl, .inl hmode⟩

end Sys2Proof.Machine
end


section
/-! PROOFS. The invariant (`StateInv`): the reset state meets it, and every effect, step and host call keeps it. -/

namespace Sys2Proof.Machine

section Keeps

variable {i : Instr} {s t : State}

/-- The reset state of any parameters: nothing is listed in memory, and no stack entry is live. -/
theorem stateInv_resetWith (c : Config) : StateInv (State.resetWith c) := by
  have hpc : resetPc.toNat ≤ 0x10FE := by decide
  exact ⟨rfl, fun _ _ => rfl, ⟨hpc, fun _ hk => absurd hk (Nat.not_lt_zero _)⟩, by simp [State.resetWith]⟩

/-- A store above the font table and inside memory keeps the invariant. -/
theorem storeBytes_keeps_inv {a : Nat} {bs : List Byte} (hinv : StateInv s) (hlo : 0x050 ≤ a)
    (hhi : a + bs.length ≤ 4096) : StateInv (s.storeBytes a bs) := by
  obtain ⟨hmem, hfont, hpc, hmode⟩ := hinv
  have hfont' : FontIntact (s.storeBytes a bs) := by
    intro b hb
    simp only [Config.fontEnd] at hb
    rw [State.byteAt_storeBytes, dif_neg (by omega), State.storeBytes_config]
    exact hfont b hb
  rw [State.storeBytes_eq] at hfont' ⊢
  exact ⟨s.storeBytes_wf a bs hmem hhi, hfont', hpc, hmode⟩

/-- Taking an error of a step keeps the invariant. -/
theorem fault_keeps_inv {e : Fault} (hinv : StateInv s) (he : e ≠ .programTooLarge) :
    StateInv { s with mode := .faulted e } := by
  obtain ⟨hmem, hfont, hpc, -⟩ := hinv
  exact ⟨hmem, hfont, hpc, fun hm => he (Mode.faulted.inj hm)⟩

/-- An entry of the stack after a push. -/
theorem get_pushed (h : s.sp.val < 16) (k : Fin 16) :
    (s.stack.set s.sp.val s.pc).get k = if k.val = s.sp.val then s.pc else s.stack.get k := by
  simpa only [Fin.ext_iff] using get_set s.stack ⟨s.sp.val, h⟩ k s.pc

theorem ControlEffect.keeps_pcBounded (h : ControlEffect i s t) (hpcs : PcBounded s) (hfetched : s.pc.toNat ≤ 0x1000) :
    PcBounded t := by
  obtain ⟨-, hstack⟩ := hpcs
  obtain ⟨a, stack, sp, ⟨-, ha, rfl, rfl⟩ | ⟨nnn, -, rfl, hroom, rfl, rfl⟩ | ⟨-, rfl, hlive, rfl, rfl⟩, rfl⟩ := h
  · refine ⟨?_, hstack⟩
    obtain ha | rfl := ha
    · exact ha
    · have hle : (s.pc + 2).toNat ≤ s.pc.toNat + 2 := by
        rw [BitVec.toNat_add]; exact Nat.mod_le ..
      exact hle.trans (by omega)
  · refine ⟨toNat_zextAddr_le nnn, fun k hk => ?_⟩
    have hentry := get_pushed hroom k
    by_cases hnew : k.val = s.sp.val
    · rw [if_pos hnew] at hentry
      exact (congrArg BitVec.toNat hentry).trans_le hfetched
    · rw [if_neg hnew] at hentry
      exact (congrArg BitVec.toNat hentry).trans_le (hstack k (Nat.lt_of_le_of_ne (Nat.le_of_lt_succ hk) hnew))
  · have htop : (s.stack[s.sp.val - 1]'(by omega)).toNat ≤ 0x1000 :=
      hstack ⟨s.sp.val - 1, by omega⟩ (Nat.sub_one_lt hlive)
    exact ⟨htop.trans (by decide), fun k hk => hstack k (hk.trans (Nat.sub_one_lt hlive))⟩

/-- Every effect keeps the invariant, from a state whose `pc` a fetch has advanced (R92: at most 0x1000). -/
theorem Effect.keeps_inv (h : Effect i s t) (hinv : StateInv s) (hfetched : s.pc.toNat ≤ 0x1000) : StateInv t := by
  have hinv' := hinv
  obtain ⟨hmem, hfont, hpc, hmode⟩ := hinv'
  obtain ⟨v', n, g, a, dt, st, -, -, -, -, -, rfl⟩ | hc | ⟨x, -, rfl⟩ | ⟨bs, -, hlo, hhi, rfl⟩ | ⟨e, he, rfl⟩ := h
  · exact ⟨hmem, hfont, hpc, hmode⟩
  · have hpc' := hc.keeps_pcBounded hpc hfetched
    obtain ⟨a, stack, sp, -, rfl⟩ := hc
    exact ⟨hmem, hfont, hpc', hmode⟩
  · exact ⟨hmem, hfont, hpc, by simp⟩
  · exact storeBytes_keeps_inv hinv hlo hhi
  · exact fault_keeps_inv hinv he

/-- A successful fetch keeps the invariant. -/
theorem advance_keeps_inv {op : Word} (hinv : StateInv s) (hfetch : FetchesWord s op) :
    StateInv s.advance ∧ s.advance.pc.toNat ≤ 0x1000 := by
  obtain ⟨hmem, hfont, ⟨-, hstack⟩, hmode⟩ := hinv
  have hpc := toNat_advance_pc hfetch
  obtain ⟨hin, -, -⟩ := hfetch
  exact ⟨⟨hmem, hfont, ⟨by omega, hstack⟩, hmode⟩, by omega⟩

theorem pollKeys_keeps_inv (x : Reg) (hinv : StateInv s) : StateInv (pollKeys x s) := by
  obtain hp | ⟨b, hp⟩ := pollKeys_cases x s
  · rwa [hp]
  · obtain ⟨hmem, hfont, hpc, -⟩ := hinv
    rw [hp]
    exact ⟨hmem, hfont, hpc, by simp⟩

theorem step_keeps_inv (hinv : StateInv s) (hstep : step s = .next t) : StateInv t := by
  cases hmode : s.mode with
  | running =>
    obtain ⟨-, hs⟩ | ⟨op, hfetch, -, hs⟩ | ⟨i, hfetch, hs⟩ := step_running_cases hmode
    · cases hs.symm.trans hstep
      exact fault_keeps_inv hinv (by simp)
    · cases hs.symm.trans hstep
      exact fault_keeps_inv (advance_keeps_inv hinv hfetch).1 (by simp)
    · obtain ⟨hadv, hpc⟩ := advance_keeps_inv hinv hfetch
      exact (exec_effect (hs.symm.trans hstep)).keeps_inv hadv hpc
  | awaitingKey x =>
    cases (step_awaiting hmode).symm.trans hstep
    exact pollKeys_keeps_inv x hinv
  | faulted e =>
    cases (step_faulted hmode).symm.trans hstep
    exact hinv

theorem hostCall_keeps_inv {c : HostCall} {r : Reply} (hinv : StateInv s) (hcall : hostCall c s = .next (t, r)) :
    StateInv t := by
  cases c with
  | reset => cases hcall; exact stateInv_resetWith s.config
  | loadProgram bytes =>
    obtain ⟨hfit, h⟩ | ⟨-, h⟩ := hostCall_loadProgram bytes s
    · cases h.symm.trans hcall
      exact storeBytes_keeps_inv hinv (by decide) hfit
    · cases h.symm.trans hcall
      exact hinv
  | step => exact step_keeps_inv hinv (step_of_hostCall_step hcall).1
  | tick => cases hcall; exact hinv
  | setKey k pressed => cases hcall; exact hinv
  | pixelGrid => cases hcall; exact hinv
  | soundActive => cases hcall; exact hinv

/-- By induction on the calls. -/
theorem runHost_keeps_inv {cs : List HostCall} (hinv : StateInv s) (hrun : runHost cs s = .next t) : StateInv t := by
  induction cs generalizing s with
  | nil => cases hrun; exact hinv
  | cons c cs ih =>
    obtain ⟨u, r, hcall, hrest⟩ := runHost_cons_next hrun
    exact ih (hostCall_keeps_inv hinv hcall) hrest

end Keeps

/-- Settles O56: what the reset state lists in memory, its `pc`, its `sp` and its mode do not depend on the parameters. -/
theorem resetStateMeetsTheInvariant : Obligations.ResetStateMeetsTheInvariant := by
  unfold Obligations.ResetStateMeetsTheInvariant
  exact stateInv_resetWith

/-- Settles O57: by the mode, and in mode Running by the fetch and the effect of the fetched instruction. -/
theorem everyStepKeepsTheInvariant : Obligations.EveryStepKeepsTheInvariant := by
  unfold Obligations.EveryStepKeepsTheInvariant
  exact fun s t => step_keeps_inv

/-- Settles O58: every call keeps the invariant, which the reset state meets. -/
theorem everyHostRunFromResetMeetsTheInvariant : Obligations.EveryHostRunFromResetMeetsTheInvariant := by
  unfold Obligations.EveryHostRunFromResetMeetsTheInvariant
  exact ⟨fun c s t r => hostCall_keeps_inv, fun c cs t => runHost_keeps_inv (stateInv_resetWith c)⟩

end Sys2Proof.Machine
end


section
/-! PROOFS. The family Control (spec/41_control.md): jumps, and the call stack. -/

namespace Sys2Proof.Machine

/-! ### Jumps (R112, R118) -/

theorem exec_jp (nnn : Addr) (s : State) : exec (.jp nnn) s = .next { s with pc := zextAddr nnn } := rfl

theorem exec_jpV0 (nnn : Addr) (s : State) : exec (.jpV0 nnn) s = .next { s with pc := s.offsetTarget nnn } := rfl

/-- A state whose `pc` is already the target is left as it is. -/
theorem pc_update_eq_self {s : State} {a : Word} (h : s.pc = a) : { s with pc := a } = s := by
  rw [← h]

/-- A running JP to its own address leaves the state as it was (R112). -/
theorem step_of_jump_to_self {s : State} {nnn : Addr} (hrun : s.mode = .running)
    (hfetch : FetchesWord s (encode (.jp nnn))) (hself : s.pc.toNat = nnn.toNat) : step s = .next s := by
  have hpc : s.pc = zextAddr nnn := BitVec.eq_of_toNat_eq (hself.trans (toNat_zextAddr nnn).symm)
  rw [step_of_fetches hrun hfetch, exec_jp]
  exact congrArg Host.Outcome.next (pc_update_eq_self hpc)

/-- Settles O22: the word is that of its encoding, the execute phase is one write of `pc`, and the next fetch from 0xFFF is
outside memory. -/
theorem jumpSetsThePc : Obligations.JumpSetsThePc := by
  unfold Obligations.JumpSetsThePc
  intro nnn
  refine ⟨?_, fun s => ⟨_, exec_jp nnn s, toNat_zextAddr nnn, rfl, fun hnnn hrun => ?_⟩, fun s => step_of_jump_to_self⟩
  · exact ofNat_eq_packNNN 0x1 nnn ▸ decodeWord_encode (.jp nnn)
  · subst hnnn
    exact step_of_fetch_outside hrun (by decide : 4096 ≤ (zextAddr 0xFFF).toNat + 1)

/-- Settles O23: the sum is exact, and a fetch above 0xFFE is outside memory. -/
theorem jumpWithOffsetAddsV0 : Obligations.JumpWithOffsetAddsV0 := by
  unfold Obligations.JumpWithOffsetAddsV0
  intro nnn s
  exact ⟨_, exec_jpV0 nnn s, toNat_offsetTarget s nnn, rfl, fun hpc hrun => step_of_fetch_outside hrun (by omega)⟩

/-! ### The call stack (R27, R28, R111, R113) -/

theorem exec_call_of_room {s : State} (nnn : Addr) (h : s.sp.val < 16) : exec (.call nnn) s = .next
    { s with stack := s.stack.set s.sp.val s.pc, sp := ⟨s.sp.val + 1, by omega⟩, pc := zextAddr nnn } := by
  rw [exec_call, dif_pos h]

theorem exec_ret_of_live {s : State} (h : s.sp.val ≠ 0) : exec .ret s = .next
    { s with sp := ⟨s.sp.val - 1, by omega⟩, pc := s.stack.get ⟨s.sp.val - 1, by omega⟩ } := by
  rw [exec_ret, dif_neg h]
  rfl

/-- Settles O24: the push writes the entry at `sp`. -/
theorem callPushesTheReturnAddress : Obligations.CallPushesTheReturnAddress := by
  unfold Obligations.CallPushesTheReturnAddress
  exact fun nnn s h => ⟨_, exec_call_of_room nnn h, toNat_zextAddr nnn, rfl, get_pushed h, rfl⟩

/-- Settles O25: the pop reads the entry below `sp`. -/
theorem returnPopsThePc : Obligations.ReturnPopsThePc := by
  unfold Obligations.ReturnPopsThePc
  intro s h
  refine ⟨_, exec_ret_of_live h, Nat.succ_pred_eq_of_ne_zero h, fun k hk => ?_, rfl⟩
  exact congrArg s.stack.get (Fin.ext hk.symm)

/-- Settles O26: there is no room at `sp` = 16, and no live entry at `sp` = 0. -/
theorem stackErrorsChangeOnlyTheMode : Obligations.StackErrorsChangeOnlyTheMode := by
  unfold Obligations.StackErrorsChangeOnlyTheMode
  intro s
  constructor
  · intro hfull nnn
    rw [exec_call, dif_neg (by simp [hfull])]
  · intro hempty
    rw [exec_ret, dif_pos (by simp [hempty])]

/-- Settles O27: the entry below the `sp` that the CALL left is the pushed `pc`. -/
theorem returnUndoesCall : Obligations.ReturnUndoesCall := by
  unfold Obligations.ReturnUndoesCall
  intro nnn s t u hroom hcall hstack hsp
  cases (exec_call_of_room nnn hroom).symm.trans hcall
  have hsp' : u.sp.val = s.sp.val + 1 := congrArg Fin.val hsp
  refine ⟨_, exec_ret_of_live (by omega), ?_, Fin.ext (by simp only [hsp', Nat.add_sub_cancel]), rfl⟩
  simp only [hstack, hsp', Nat.add_sub_cancel]
  rw [get_pushed hroom, if_pos rfl]

end Sys2Proof.Machine
end


section
/-! PROOFS. The family Display (spec/42_display.md): the draw, cell by cell. -/

namespace Sys2Proof.Machine

/-- A 1 bit of the `n` sprite bytes at I lands on the cell, with the sprite at `(V[x], V[y])` (R130, R131, R133). -/
def State.spriteLands (s : State) (x y n : Reg) (c : Fin 64) (r : Fin 32) : Prop :=
  ∃ row col, row < n.val ∧ col < 8 ∧ (s.byteAt (s.i.toNat + row)).getLsbD (7 - col) = true ∧
    c.val = ((s.readV x).toNat + col) % 64 ∧ r.val = ((s.readV y).toNat + row) % 32

theorem sprite_length (s : State) (n : Reg) : (s.sprite n).length = n.val := bytesFrom_length ..

theorem sprite_getElem (s : State) (n : Reg) (k : Nat) (h : k < (s.sprite n).length) :
    (s.sprite n)[k] = s.byteAt (s.i.toNat + k) := bytesFrom_getElem ..

theorem spriteHits_iff_spriteLands {s : State} {x y n : Reg} {c : Fin 64} {r : Fin 32} :
    spriteHits (s.readV x).toNat (s.readV y).toNat 0 (s.sprite n) c r ↔ s.spriteLands x y n c r := by
  constructor
  · rintro ⟨row, hrow, col, hcol, hbit, hc, hr⟩
    rw [sprite_getElem] at hbit
    rw [Nat.zero_add] at hr
    exact ⟨row, col, sprite_length s n ▸ hrow, hcol, hbit, congrArg Fin.val hc, congrArg Fin.val hr⟩
  · rintro ⟨row, col, hrow, hcol, hbit, hc, hr⟩
    refine ⟨row, (sprite_length s n).symm ▸ hrow, col, hcol, ?_, Fin.ext hc, Fin.ext ?_⟩
    · rw [sprite_getElem]; exact hbit
    · rw [Nat.zero_add]; exact hr

/-- A sprite is too short to meet a row of the grid twice. -/
theorem sprite_length_le (s : State) (n : Reg) : 0 + (s.sprite n).length ≤ 32 := by
  have hn := n.isLt
  rw [sprite_length]
  omega

theorem blit_pixel_ne_iff {s : State} {x y n : Reg} {c : Fin 64} {r : Fin 32} :
    (s.blit x y n).1.pixel c r ≠ s.grid.pixel c r ↔ s.spriteLands x y n c r :=
  ((drawRows_spec _ _ _ _ _ (sprite_length_le s n)).1 c r).trans spriteHits_iff_spriteLands

/-- A draw reports a collision exactly when some cell went from set to unset. -/
theorem blit_collided_iff {s : State} {x y n : Reg} :
    (s.blit x y n).2 = true ↔ ∃ c r, s.grid.pixel c r = true ∧ (s.blit x y n).1.pixel c r = false := by
  have hspec := (drawRows_spec (s.readV x).toNat (s.readV y).toNat 0 (s.sprite n) (s.grid, false) (sprite_length_le s n)).2
  refine hspec.trans ?_
  simp only [Bool.false_eq_true, false_or, spriteHits_iff_spriteLands, ← blit_pixel_ne_iff]
  constructor
  · rintro ⟨c, r, hne, hset⟩
    exact ⟨c, r, hset, by simpa [hset] using hne⟩
  · rintro ⟨c, r, hset, hunset⟩
    exact ⟨c, r, by simp [hset, hunset], hset⟩

theorem collisionFlag_cases (b : Bool) : collisionFlag b = 1 ∨ collisionFlag b = 0 := by
  cases b with
  | false => exact .inr rfl
  | true => exact .inl rfl

theorem collisionFlag_eq_one_iff {b : Bool} : collisionFlag b = 1 ↔ b = true := by
  cases b with
  | false => decide
  | true => decide

/-- The state a draw inside memory leaves. -/
def State.drawn (s : State) (x y n : Reg) : State :=
  State.writeV { s with grid := (s.blit x y n).1 } VF (collisionFlag (s.blit x y n).2)

theorem exec_drw_inside {s : State} {x y n : Reg} (h : n.val = 0 ∨ s.i.toNat + n.val ≤ 4096) :
    exec (.drw x y n) s = .next (s.drawn x y n) := by
  rw [exec_drw, if_pos h, State.drawn]

theorem readV_drawn (s : State) (x y n k : Reg) :
    (s.drawn x y n).readV k = if k = VF then collisionFlag (s.blit x y n).2 else s.readV k :=
  State.readV_writeV ..

theorem drawn_grid (s : State) (x y n : Reg) : (s.drawn x y n).grid = (s.blit x y n).1 := rfl

theorem readV_drawn_VF_eq_one_iff {s : State} {x y n : Reg} : (s.drawn x y n).readV VF = 1 ↔
    ∃ c r, s.grid.pixel c r = true ∧ (s.drawn x y n).grid.pixel c r = false := by
  rw [readV_drawn, if_pos rfl, collisionFlag_eq_one_iff, blit_collided_iff, drawn_grid]

/-- Settles O30: the draw's cells are those a sprite bit lands on, and its flag is the collision's. -/
theorem drawTogglesExactlyTheSpritePixels : Obligations.DrawTogglesExactlyTheSpritePixels := by
  unfold Obligations.DrawTogglesExactlyTheSpritePixels
  intro x y n s h
  refine ⟨_, exec_drw_inside h, fun c r => blit_pixel_ne_iff, ?_, readV_drawn_VF_eq_one_iff, fun k hk => ?_, rfl⟩
  · rw [readV_drawn, if_pos rfl]
    exact collisionFlag_cases _
  · rw [readV_drawn, if_neg hk]

/-- Where a sprite lands depends on I, the coordinates and memory only. -/
theorem spriteLands_congr {s u : State} {x y n : Reg} {c : Fin 64} {r : Fin 32} (hi : u.i = s.i)
    (hx : u.readV x = s.readV x) (hy : u.readV y = s.readV y) (hmem : SameMemory s u) :
    u.spriteLands x y n c r ↔ s.spriteLands x y n c r := by
  simp only [State.spriteLands, hi, hx, hy, hmem _]

/-- The same draw once more gives the first grid back. -/
theorem blit_of_drawn {s u : State} {x y n : Reg} (hgrid : u.grid = (s.blit x y n).1) (hi : u.i = s.i)
    (hx : u.readV x = s.readV x) (hy : u.readV y = s.readV y) (hmem : SameMemory s u) :
    (u.blit x y n).1 = s.grid := by
  refine grid_ext fun c r => ?_
  have hfirst : (s.blit x y n).1.pixel c r ≠ s.grid.pixel c r ↔ s.spriteLands x y n c r := blit_pixel_ne_iff
  have hsecond : (u.blit x y n).1.pixel c r ≠ u.grid.pixel c r ↔ u.spriteLands x y n c r := blit_pixel_ne_iff
  rw [spriteLands_congr hi hx hy hmem, ← hfirst, hgrid] at hsecond
  generalize (u.blit x y n).1.pixel c r = p at hsecond ⊢
  generalize (s.blit x y n).1.pixel c r = q at hsecond
  generalize s.grid.pixel c r = p₀ at hsecond ⊢
  revert p q p₀
  decide

/-- Settles O31: the second draw lands on the same cells and toggles them back, so it clears those that the first set. -/
theorem drawingTwiceRestoresTheGrid : Obligations.DrawingTwiceRestoresTheGrid := by
  unfold Obligations.DrawingTwiceRestoresTheGrid
  intro x y n s t u h hdraw hgrid hi hx hy hmem
  cases (exec_drw_inside h).symm.trans hdraw
  have hback : (u.drawn x y n).grid = s.grid := blit_of_drawn hgrid hi hx hy hmem
  refine ⟨_, exec_drw_inside (hi.symm ▸ h), hback, ?_⟩
  rw [readV_drawn_VF_eq_one_iff, hback, hgrid]
  simp only [and_comm]

end Sys2Proof.Machine
end


section
/-! PROOFS. The family ALU: subtractions, shifts and the random draw (spec/43_alu.md R148 to R152). -/

namespace Sys2Proof.Machine

/-! ### Differences and shifts as numbers -/

/-- The difference modulo 256 is the difference of bytes. -/
theorem diffByte_eq_sub (a b : Byte) : diffByte a b = a - b := by
  have hb := b.isLt
  apply BitVec.eq_of_toNat_eq
  rw [diffByte, BitVec.toNat_ofNat, BitVec.toNat_sub, Nat.mod_mod, Nat.add_comm, Nat.sub_add_comm hb.le]

theorem noBorrowFlag_eq_ite (a b : Byte) : noBorrowFlag a b = if b.toNat ≤ a.toNat then 1 else 0 := by
  simp only [noBorrowFlag, flagByte, decide_eq_true_eq, ge_iff_le]

theorem shiftRight_one_eq (b : Byte) : b >>> 1 = BitVec.ofNat 8 (b.toNat / 2) := by
  have hb := b.isLt
  apply BitVec.eq_of_toNat_eq
  rw [BitVec.toNat_ushiftRight, BitVec.toNat_ofNat, Nat.shiftRight_eq_div_pow, pow_one]
  exact (Nat.mod_eq_of_lt (by omega)).symm

theorem shiftLeft_one_eq (b : Byte) : b <<< 1 = BitVec.ofNat 8 (b.toNat * 2) := by
  apply BitVec.eq_of_toNat_eq
  simp only [BitVec.toNat_shiftLeft, BitVec.toNat_ofNat, Nat.shiftLeft_eq]

/-- The low bit. -/
theorem shiftRightFlag_eq_ite (b : Byte) : shiftRightFlag b = if b.toNat % 2 = 1 then 1 else 0 := by
  have hone : (1 : Byte).toNat = 1 := rfl
  apply BitVec.eq_of_toNat_eq
  rw [shiftRightFlag, BitVec.toNat_and, hone, Nat.and_one_is_mod]
  split
  · next h => exact h
  · next h => exact (Nat.mod_two_ne_one.mp h)

/-- The high bit. -/
theorem shiftLeftFlag_eq_ite (b : Byte) : shiftLeftFlag b = if 128 ≤ b.toNat then 1 else 0 := by
  have hb := b.isLt
  apply BitVec.eq_of_toNat_eq
  rw [shiftLeftFlag, BitVec.toNat_ushiftRight, Nat.shiftRight_eq_div_pow]
  split
  · exact (by omega : b.toNat / 2 ^ 7 = 1)
  · exact (by omega : b.toNat / 2 ^ 7 = 0)

/-! ### The execute phases -/

theorem exec_sub (x y : Reg) (s : State) : exec (.sub x y) s = .next (s.writeWithFlag x (s.readV x - s.readV y)
    (if (s.readV y).toNat ≤ (s.readV x).toNat then 1 else 0)) := by
  rw [← diffByte_eq_sub, ← noBorrowFlag_eq_ite]
  rfl

theorem exec_subn (x y : Reg) (s : State) : exec (.subn x y) s = .next (s.writeWithFlag x (s.readV y - s.readV x)
    (if (s.readV x).toNat ≤ (s.readV y).toNat then 1 else 0)) := by
  rw [← diffByte_eq_sub, ← noBorrowFlag_eq_ite]
  rfl

theorem exec_shr (x y : Reg) (s : State) :
    exec (.shr x y) s = .next (s.writeWithFlag x (BitVec.ofNat 8 ((s.readV y).toNat / 2))
      (if (s.readV y).toNat % 2 = 1 then 1 else 0)) := by
  rw [← shiftRight_one_eq, ← shiftRightFlag_eq_ite]
  rfl

theorem exec_shl (x y : Reg) (s : State) :
    exec (.shl x y) s = .next (s.writeWithFlag x (BitVec.ofNat 8 ((s.readV y).toNat * 2))
      (if 128 ≤ (s.readV y).toNat then 1 else 0)) := by
  rw [← shiftLeft_one_eq, ← shiftLeftFlag_eq_ite]
  rfl

/-- Settles O35: each writes the difference and then the no-borrow flag. -/
theorem subtractionsSetNoBorrow : Obligations.SubtractionsSetNoBorrow := by
  unfold Obligations.SubtractionsSetNoBorrow
  exact fun x y s => ⟨writesRegisters_of_exec_writeWithFlag (exec_sub x y s),
    writesRegisters_of_exec_writeWithFlag (exec_subn x y s)⟩

/-- Settles O36: each writes the shifted V[y] and then the bit shifted out. -/
theorem shiftsTakeVyAndSetTheBitShiftedOut : Obligations.ShiftsTakeVyAndSetTheBitShiftedOut := by
  unfold Obligations.ShiftsTakeVyAndSetTheBitShiftedOut
  exact fun x y s => ⟨writesRegisters_of_exec_writeWithFlag (exec_shr x y s),
    writesRegisters_of_exec_writeWithFlag (exec_shl x y s)⟩

/-! ### The random draw (R152) -/

theorem exec_rnd (x : Reg) (nn : Byte) (s : State) : exec (.rnd x nn) s =
    .next (State.writeV { s with draws := s.draws + 1 } x (nn &&& Config.draw8 s.draws)) := rfl

/-- What is under a mask has no bit outside it. -/
theorem masked_and_not (m b : Byte) : (m &&& b) &&& ~~~m = 0 := by
  rw [BitVec.and_comm m b, BitVec.and_assoc, BitVec.and_not_self]
  exact BitVec.and_zero

/-- Settles O37: one draw is taken, and one write puts it under the mask into V[x]. -/
theorem randomIsAFreshDrawUnderTheMask : Obligations.RandomIsAFreshDrawUnderTheMask := by
  unfold Obligations.RandomIsAFreshDrawUnderTheMask
  intro x nn s
  have hread (k : Reg) := State.readV_writeV { s with draws := s.draws + 1 } x k (nn &&& Config.draw8 s.draws)
  refine ⟨_, exec_rnd x nn s, hread, ?_, rfl, rfl⟩
  rw [hread, if_pos rfl]
  exact masked_and_not nn _

end Sys2Proof.Machine
end


section
/-! PROOFS. The family Keys and timers (spec/45_keys_timers.md R190, R191): the skips on a key. -/

namespace Sys2Proof.Machine

/-- A key skip with an index in range skips exactly when the key's state is the wanted one. -/
theorem skipOnKey_of_index {want : Bool} {x : Reg} {s : State} (h : (s.readV x).toNat < 16) :
    skipOnKey want x s =
      .next (if s.key.get ⟨(s.readV x).toNat, h⟩ = want then { s with pc := s.pc + 2 } else s) := by
  rw [skipOnKey, dif_neg (by omega)]
  exact congrArg Host.Outcome.next (skipIf_eq_ite beq_iff_eq s)

/-- Settles O47: the wanted state is pressed for SKP and not pressed for SKNP. -/
theorem keySkipsReadTheKeyVector : Obligations.KeySkipsReadTheKeyVector := by
  unfold Obligations.KeySkipsReadTheKeyVector
  exact fun x s h => ⟨skipOnKey_of_index h, skipOnKey_of_index h⟩

end Sys2Proof.Machine
end
